-- ==== Sys2Proof/Word.lean ====
section
/-! DEFINITION. The word types of the machine (00_scope.md R9: u4, u8, u12, u16). -/

namespace Sys2Proof

/-- A u4: a register number, a key number, a row count. -/
abbrev Nibble := BitVec 4

/-- A u8: a general register, a timer, a byte of memory. -/
abbrev Byte := BitVec 8

/-- A u12: the immediate address nnn. -/
abbrev Addr12 := BitVec 12

/-- A u16: the instruction word, PC, I, a stack entry. -/
abbrev Word := BitVec 16

end Sys2Proof
end

