-- ==== Sys2Proof/Machine/Flags.lean ====
section
/-! DEFINITION. The flag bytes VF receives (10_state.md R22; 43_alu.md R156 to R161): exactly 0x00 or 0x01. -/

namespace Sys2Proof.Machine

open Sys2Proof

/-- A flag output. -/
def flag (b : Bool) : Byte := if b then 0x01 else 0x00

/-- 8xy4: the carry out of the sum, computed in nat (R156). -/
def carryFlag (a b : Byte) : Byte := flag (decide (a.toNat + b.toNat > 255))

/-- 8xy5 and 8xy7: minuend strictly greater than subtrahend (R157, R159; C2). -/
def noBorrowFlag (minuend subtrahend : Byte) : Byte := flag (decide (minuend.toNat > subtrahend.toNat))

/-- 8xy6: the bit shifted out of bit 0 (R158). -/
def shiftRightFlag (a : Byte) : Byte := a &&& 0x01

/-- 8xyE: the bit shifted out of bit 7 (R160). -/
def shiftLeftFlag (a : Byte) : Byte := flag (decide (a &&& 0x80 ≠ 0))

end Sys2Proof.Machine
end

