-- ==== Sys2Proof/Config.lean ====
section
/-! DEFINITION. The implementation parameters of 00_scope.md R7 and the one free value (44_random.md R181). -/

namespace Sys2Proof

/-- DRAW_EDGE: what a sprite pixel outside the 64 x 32 grid does (48_display.md R232). -/
inductive DrawEdge where
  | clampAxis
  | clampLinear
  | wrap
deriving DecidableEq, Repr

/-- FONT: 16 glyphs of 5 bytes (10_state.md R37). -/
abbrev Font := Vector (Vector Byte 5) 16

/-- The parameters the spec leaves OPEN (00_scope.md R7). State holds one such record, which no step changes, so
that a statement about every state holds for every choice of them (log 5). Their default values are in
Machine/Defaults.lean. -/
structure Params where
  /-- STACK_DEPTH, the capacity of the call stack (R26). -/
  stackDepth : Nat
  /-- DRAW_EDGE (R232). -/
  drawEdge : DrawEdge
  /-- STRICT_59: whether 5xyN and 9xyN with N other than 0 are INVALID (R81). -/
  strict59 : Bool
  /-- FONT (R37). -/
  font : Font
deriving DecidableEq, Repr

/-- The free value of the random source: the byte it answers to draw number `n` once the answers it was seeded with
are used up. It has no value in the model: 44_random.md R181, "a draw under no law" (log 7). -/
opaque Config.freeRandom : Nat → Byte

end Sys2Proof
end

