-- ==== Sys2Proof/Machine/Defaults.lean ====
section
/-! DEFINITION. The fixed sizes and the default parameter values of 00_scope.md R7. -/

namespace Sys2Proof

/-- MEM_SIZE: addresses 0x000 to 0xFFF. -/
def memSize : Nat := 4096

/-- PROG_BASE, where the program image is loaded. -/
def progBase : Nat := 0x200

/-- PROG_MAX, the largest program image. -/
def progMax : Nat := 3584

/-- PC_RESET. -/
def pcReset : Word := 0x200

/-- FONT_BASE. -/
def fontBase : Word := 0x000

/-- The conventional font table of 10_state.md R37 (PRESUMED: the spec's own mark is general knowledge; log 1). -/
def defaultFont : Font := #v[
  #v[0xF0, 0x90, 0x90, 0x90, 0xF0],
  #v[0x20, 0x60, 0x20, 0x20, 0x70],
  #v[0xF0, 0x10, 0xF0, 0x80, 0xF0],
  #v[0xF0, 0x10, 0xF0, 0x10, 0xF0],
  #v[0x90, 0x90, 0xF0, 0x10, 0x10],
  #v[0xF0, 0x80, 0xF0, 0x10, 0xF0],
  #v[0xF0, 0x80, 0xF0, 0x90, 0xF0],
  #v[0xF0, 0x10, 0x20, 0x40, 0x40],
  #v[0xF0, 0x90, 0xF0, 0x90, 0xF0],
  #v[0xF0, 0x90, 0xF0, 0x10, 0xF0],
  #v[0xF0, 0x90, 0xF0, 0x90, 0x90],
  #v[0xE0, 0x90, 0xE0, 0x90, 0xE0],
  #v[0xF0, 0x80, 0x80, 0x80, 0xF0],
  #v[0xE0, 0x90, 0x90, 0x90, 0xE0],
  #v[0xF0, 0x80, 0xF0, 0x80, 0xF0],
  #v[0xF0, 0x80, 0xF0, 0x80, 0x80]]

/-- The default parameters (R7): STACK_DEPTH 16, DRAW_EDGE clamp_axis, STRICT_59 false, FONT the table above
(DESIGN CHOICE of the spec's D5, D8, D17, D22; logs 1 to 4). -/
def defaultParams : Params where
  stackDepth := 16
  drawEdge := .clampAxis
  strict59 := false
  font := defaultFont

end Sys2Proof
end

