-- ==== Sys2Proof/WellFormed.lean ====
section
/-! DEFINITION. Which instructions have a word of their own under the parameter STRICT_59 (30_encoding.md R77, R81). -/

namespace Sys2Proof

/-- SYS has every word 0nnn but 00E0 and 00EE, which are CLS and RET (R77); with STRICT_59 only the low nibble 0 is
SE or SNE on registers (R81). Every other constructor is well-formed with every operand. -/
def Instr.wf (strict59 : Bool) : Instr → Bool
  | .sys nnn => nnn != 0x0E0 && nnn != 0x0EE
  | .seReg _ _ n => !strict59 || n == 0
  | .sneReg _ _ n => !strict59 || n == 0
  | .cls | .ret | .jp _ | .call _ | .seImm _ _ | .sneImm _ _ | .ldImm _ _ | .addImm _ _ | .ldReg _ _ | .orReg _ _
  | .andReg _ _ | .xorReg _ _ | .addReg _ _ | .sub _ _ | .shr _ _ | .subn _ _ | .shl _ _ | .ldI _ | .jpV0 _ | .rnd _ _
  | .drw _ _ _ | .skp _ | .sknp _ | .ldVxDt _ | .ldVxK _ | .ldDtVx _ | .ldStVx _ | .addIVx _ | .ldFVx _ | .ldBVx _
  | .ldMemVx _ | .ldVxMem _ => true

end Sys2Proof
end

