-- ==== Sys2Proof/Decode.lean ====
section
/-! DEFINITION. The decoder (30_encoding.md R71 to R81), the encoder, and the host's decoding probe. -/

namespace Sys2Proof

/-- The 36 operation classes of 30_encoding.md R72 and R78: 35 and INVALID. -/
inductive Class where
  | SYS | CLS | RET | JP | CALL | SE_IMM | SNE_IMM | SE_REG | LD_IMM | ADD_IMM | LD_REG | OR | AND | XOR | ADD_REG
  | SUB | SHR | SUBN | SHL | SNE_REG | LD_I | JP_V0 | RND | DRW | SKP | SKNP | LD_VX_DT | LD_VX_K | LD_DT_VX
  | LD_ST_VX | ADD_I_VX | LD_F_VX | LD_B_VX | LD_MEM_VX | LD_VX_MEM | INVALID
deriving DecidableEq, Repr

/-- The decoder's output record (R72). All five fields are present whatever the class. -/
structure Decoded where
  cls : Class
  x : Nibble
  y : Nibble
  kk : Byte
  nnn : Addr12
  n : Nibble
deriving DecidableEq, Repr

/-! The fields of an instruction word (R71). -/

/-- op[15:12], the family. -/
def fieldF (op : Word) : Nibble := op.extractLsb' 12 4

/-- op[11:8]. -/
def fieldX (op : Word) : Nibble := op.extractLsb' 8 4

/-- op[7:4]. -/
def fieldY (op : Word) : Nibble := op.extractLsb' 4 4

/-- op[3:0]. -/
def fieldN (op : Word) : Nibble := op.extractLsb' 0 4

/-- op[7:0]. -/
def fieldKK (op : Word) : Byte := op.extractLsb' 0 8

/-- op[11:0]. -/
def fieldNNN (op : Word) : Addr12 := op.extractLsb' 0 12

/-- The word whose high byte is the first in memory (20_memory.md R55). -/
def opOf (hi lo : Byte) : Word := hi ++ lo

/-- Family 0 dispatches on the whole word (R77; D33). -/
def classFamily0 (op : Word) : Class :=
  if op = 0x00E0 then .CLS else if op = 0x00EE then .RET else .SYS

/-- Family 8 dispatches on the low nibble (R77). -/
def classFamily8 (n : Nibble) : Class :=
  match n with
  | 0x0 => .LD_REG
  | 0x1 => .OR
  | 0x2 => .AND
  | 0x3 => .XOR
  | 0x4 => .ADD_REG
  | 0x5 => .SUB
  | 0x6 => .SHR
  | 0x7 => .SUBN
  | 0xE => .SHL
  | _ => .INVALID

/-- Family E dispatches on the low byte (R77). -/
def classFamilyE (kk : Byte) : Class :=
  if kk = 0x9E then .SKP else if kk = 0xA1 then .SKNP else .INVALID

/-- Family F dispatches on the low byte (R77). -/
def classFamilyF (kk : Byte) : Class :=
  if kk = 0x07 then .LD_VX_DT
  else if kk = 0x0A then .LD_VX_K
  else if kk = 0x15 then .LD_DT_VX
  else if kk = 0x18 then .LD_ST_VX
  else if kk = 0x1E then .ADD_I_VX
  else if kk = 0x29 then .LD_F_VX
  else if kk = 0x33 then .LD_B_VX
  else if kk = 0x55 then .LD_MEM_VX
  else if kk = 0x65 then .LD_VX_MEM
  else .INVALID

/-- Families 5 and 9: the low nibble is examined only under STRICT_59 (R81). -/
def classFamily59 (strict59 : Bool) (n : Nibble) (c : Class) : Class :=
  if n = 0 ∨ strict59 = false then c else .INVALID

/-- The class of a word (R77). -/
def classOf (strict59 : Bool) (op : Word) : Class :=
  match fieldF op with
  | 0x0 => classFamily0 op
  | 0x1 => .JP
  | 0x2 => .CALL
  | 0x3 => .SE_IMM
  | 0x4 => .SNE_IMM
  | 0x5 => classFamily59 strict59 (fieldN op) .SE_REG
  | 0x6 => .LD_IMM
  | 0x7 => .ADD_IMM
  | 0x8 => classFamily8 (fieldN op)
  | 0x9 => classFamily59 strict59 (fieldN op) .SNE_REG
  | 0xA => .LD_I
  | 0xB => .JP_V0
  | 0xC => .RND
  | 0xD => .DRW
  | 0xE => classFamilyE (fieldKK op)
  | _ => classFamilyF (fieldKK op)

/-- The decoder block: total, "never fails" (R73). -/
def decodeRecord (strict59 : Bool) (op : Word) : Decoded where
  cls := classOf strict59 op
  x := fieldX op
  y := fieldY op
  kk := fieldKK op
  nnn := fieldNNN op
  n := fieldN op

/-- Why a word is no instruction: its record is INVALID (R79). -/
inductive Rejected where
  | invalid (record : Decoded)
deriving DecidableEq, Repr

/-- The instruction of a record: an instruction reads only the fields its format names (R74), or carries the ignored
nibble of its word. -/
def Decoded.toInstr (d : Decoded) : Except Rejected Instr :=
  match d.cls with
  | .SYS => .ok (.sys d.nnn)
  | .CLS => .ok .cls
  | .RET => .ok .ret
  | .JP => .ok (.jp d.nnn)
  | .CALL => .ok (.call d.nnn)
  | .SE_IMM => .ok (.seImm d.x d.kk)
  | .SNE_IMM => .ok (.sneImm d.x d.kk)
  | .SE_REG => .ok (.seReg d.x d.y d.n)
  | .LD_IMM => .ok (.ldImm d.x d.kk)
  | .ADD_IMM => .ok (.addImm d.x d.kk)
  | .LD_REG => .ok (.ldReg d.x d.y)
  | .OR => .ok (.orReg d.x d.y)
  | .AND => .ok (.andReg d.x d.y)
  | .XOR => .ok (.xorReg d.x d.y)
  | .ADD_REG => .ok (.addReg d.x d.y)
  | .SUB => .ok (.sub d.x d.y)
  | .SHR => .ok (.shr d.x d.y)
  | .SUBN => .ok (.subn d.x d.y)
  | .SHL => .ok (.shl d.x d.y)
  | .SNE_REG => .ok (.sneReg d.x d.y d.n)
  | .LD_I => .ok (.ldI d.nnn)
  | .JP_V0 => .ok (.jpV0 d.nnn)
  | .RND => .ok (.rnd d.x d.kk)
  | .DRW => .ok (.drw d.x d.y d.n)
  | .SKP => .ok (.skp d.x)
  | .SKNP => .ok (.sknp d.x)
  | .LD_VX_DT => .ok (.ldVxDt d.x)
  | .LD_VX_K => .ok (.ldVxK d.x)
  | .LD_DT_VX => .ok (.ldDtVx d.x)
  | .LD_ST_VX => .ok (.ldStVx d.x)
  | .ADD_I_VX => .ok (.addIVx d.x)
  | .LD_F_VX => .ok (.ldFVx d.x)
  | .LD_B_VX => .ok (.ldBVx d.x)
  | .LD_MEM_VX => .ok (.ldMemVx d.x)
  | .LD_VX_MEM => .ok (.ldVxMem d.x)
  | .INVALID => .error (.invalid d)

/-- `decode(byte_high, byte_low)` (R73): the instruction, or the INVALID record that the execution engine rejects. -/
def decode (strict59 : Bool) (hi lo : Byte) : Except Rejected Instr :=
  (decodeRecord strict59 (opOf hi lo)).toInstr

/-! The encoder, written from the patterns of R78. -/

/-- Format NNN: `ffff nnnn nnnn nnnn`. -/
def wordNNN (f : Nibble) (nnn : Addr12) : Word := f ++ nnn

/-- Format XKK: `ffff xxxx kkkk kkkk`. -/
def wordXKK (f x : Nibble) (kk : Byte) : Word := f ++ (x ++ kk)

/-- Formats XY, X_ and XYN: `ffff xxxx yyyy nnnn`. -/
def wordXYN (f x y n : Nibble) : Word := f ++ (x ++ (y ++ n))

/-- The word of an instruction (R78). -/
def encode : Instr → Word
  | .sys nnn => wordNNN 0x0 nnn
  | .cls => 0x00E0
  | .ret => 0x00EE
  | .jp nnn => wordNNN 0x1 nnn
  | .call nnn => wordNNN 0x2 nnn
  | .seImm x kk => wordXKK 0x3 x kk
  | .sneImm x kk => wordXKK 0x4 x kk
  | .seReg x y n => wordXYN 0x5 x y n
  | .ldImm x kk => wordXKK 0x6 x kk
  | .addImm x kk => wordXKK 0x7 x kk
  | .ldReg x y => wordXYN 0x8 x y 0x0
  | .orReg x y => wordXYN 0x8 x y 0x1
  | .andReg x y => wordXYN 0x8 x y 0x2
  | .xorReg x y => wordXYN 0x8 x y 0x3
  | .addReg x y => wordXYN 0x8 x y 0x4
  | .sub x y => wordXYN 0x8 x y 0x5
  | .shr x y => wordXYN 0x8 x y 0x6
  | .subn x y => wordXYN 0x8 x y 0x7
  | .shl x y => wordXYN 0x8 x y 0xE
  | .sneReg x y n => wordXYN 0x9 x y n
  | .ldI nnn => wordNNN 0xA nnn
  | .jpV0 nnn => wordNNN 0xB nnn
  | .rnd x kk => wordXKK 0xC x kk
  | .drw x y n => wordXYN 0xD x y n
  | .skp x => wordXKK 0xE x 0x9E
  | .sknp x => wordXKK 0xE x 0xA1
  | .ldVxDt x => wordXKK 0xF x 0x07
  | .ldVxK x => wordXKK 0xF x 0x0A
  | .ldDtVx x => wordXKK 0xF x 0x15
  | .ldStVx x => wordXKK 0xF x 0x18
  | .addIVx x => wordXKK 0xF x 0x1E
  | .ldFVx x => wordXKK 0xF x 0x29
  | .ldBVx x => wordXKK 0xF x 0x33
  | .ldMemVx x => wordXKK 0xF x 0x55
  | .ldVxMem x => wordXKK 0xF x 0x65

/-- The byte at the lower address, the high byte of the word (20_memory.md R55). -/
def hiByte (op : Word) : Byte := op.extractLsb' 8 8

/-- The byte at the higher address. -/
def loByte (op : Word) : Byte := op.extractLsb' 0 8

/-- The host's probe: the word of a table row, laid out as memory holds it, through the decoder with the default
STRICT_59. Bits of `w` at and above `nbits` are zero. -/
def decodeTableWord (nbits w : Nat) : Option Instr :=
  let op : Word := BitVec.ofNat 16 (w % 2 ^ nbits)
  (decode defaultParams.strict59 (hiByte op) (loByte op)).toOption

end Sys2Proof
end

