-- ==== Sys2Proof/Machine/State.lean ====
section
/-! DEFINITION. The machine state (10_state.md, 20_memory.md), the fault and refusal reasons, and the state after
reset (70_reset_and_hazards.md R290, R291). -/

namespace Sys2Proof.Machine

open Sys2Proof

/-- The five error kinds (60_exceptions.md R250). All are fatal (R252). -/
inductive FaultKind where
  /-- Raised by executing an INVALID record (R254). -/
  | unknownOpcode
  /-- Raised by RET with an empty call stack (R123). -/
  | stackUnderflow
  /-- Raised by CALL with a full call stack (R122). -/
  | stackOverflow
  /-- Raised by fetch, DRW, LD B, LD [I] and LD Vx [I] at an address above 0xFFF (R52, R53, R101). -/
  | memoryBoundsViolation
  /-- Raised by SKP and SKNP with Vx above 0xF (R220, R221). -/
  | keyIndexViolation
deriving DecidableEq, Repr

/-- The fault record (10_state.md R36). -/
structure FaultRecord where
  kind : FaultKind
  /-- PC of the tick that faulted. -/
  pc : Word
  /-- The offending address of a MemoryBoundsViolation, absent for the other kinds. -/
  addr : Option Nat
deriving DecidableEq, Repr

/-- What the host hands over for one tick (60_exceptions.md R271, R280): the key array as it writes it before the
tick, and the elapsed time it passes, in seconds. -/
structure HostInput where
  keys : Vector Bool 16
  elapsed : Rat
deriving DecidableEq, Repr

/-- The machine state. INVENTORY.md lists each field with its rule and its reset value. -/
structure State where
  /-- V0..VF (R20). -/
  v : Vector Byte 16
  /-- PC (R24). -/
  pc : Word
  /-- I (R25). -/
  i : Word
  /-- SP, the number of stack entries held (R26). -/
  sp : Nat
  /-- STACK[0..STACK_DEPTH-1] (R26). -/
  stack : List Word
  /-- DT (R28). -/
  dt : Byte
  /-- ST (R28). -/
  st : Byte
  /-- ACC, in seconds (R29). -/
  acc : Rat
  /-- DISP: row y is a 64-bit row whose bit x is the cell x + 64 y (R30). -/
  disp : Vector (BitVec 64) 32
  /-- REDRAW (R31). -/
  redraw : Bool
  /-- KEYS[0..15], written by the host only (R32). -/
  keys : Vector Bool 16
  /-- FAULT (R36). -/
  fault : Option FaultRecord
  /-- M: the cells that differ from the contents after construction without an image (R50, R51; log 23). -/
  mem : List Host.Cell
  /-- The implementation parameters, written by no step (R7; log 5). -/
  params : Params
  /-- The `elapsed` input signal (R271; log 8). -/
  elapsed : Rat
  /-- The host's coming interactions, one per tick (R280; log 9). -/
  pending : List HostInput
  /-- The bytes the injected random source is seeded to answer first (R181; log 7). -/
  rngQueue : List Byte
  /-- How many random bytes have been drawn (R181; log 7). -/
  rngDraws : Nat
deriving DecidableEq, Repr

/-- Why a step stops with a fault. -/
inductive Fault where
  /-- Raised by `step` alone, in a state whose FAULT is set: the tick returns the same record and changes nothing
  (60_exceptions.md R253). Safe: the hardware stops there too. The tick that first faults is a next state that holds
  the record (R251; log 11). -/
  | fatal (record : FaultRecord)
deriving DecidableEq, Repr

/-- Why a step has no meaning. -/
inductive Refusal where
  /-- Raised by `exec` for an instruction not modelled yet; no arm does. Safe. -/
  | notModelled (mnemonic : String)
  /-- Raised by `step` when the host passes a negative elapsed time, a violation of the host's duty
  (60_exceptions.md R280, 93_implementation_defined.md section 1; log 10). Safe. -/
  | negativeElapsed
deriving DecidableEq, Repr

/-- The machine right after construction with an empty image (R290, R291). The fields after `params` are the model's
own inputs (DESIGN CHOICE; logs 7, 8, 9). -/
def State.reset : State where
  v := Vector.replicate 16 0
  pc := pcReset
  i := 0
  sp := 0
  stack := List.replicate defaultParams.stackDepth 0
  dt := 0
  st := 0
  acc := 0
  disp := Vector.replicate 32 0
  redraw := false
  keys := Vector.replicate 16 false
  fault := none
  mem := []
  params := defaultParams
  elapsed := 0
  pending := []
  rngQueue := []
  rngDraws := 0

end Sys2Proof.Machine
end

