-- ==== Sys2Proof/Machine/Ops.lean ====
section
/-! DEFINITION. The named operations over registers, memory, the call stack, the program counter and the fault
register (10_state.md, 20_memory.md, 40_tick_cycle.md, 60_exceptions.md). -/

namespace Sys2Proof.Machine

open Sys2Proof

/-- What a meaning answers. -/
abbrev Result := Host.Outcome State Fault Refusal

/-! ## General registers (R20) -/

/-- V[r]. -/
def State.reg (s : State) (r : Nibble) : Byte := s.v[r.toNat]'r.isLt

/-- V[r] <- b. No register is hardwired (R20). -/
def State.setReg (s : State) (r : Nibble) (b : Byte) : State := { s with v := s.v.set r.toNat b r.isLt }

/-- The number of VF, the flag output (R22). -/
abbrev vf : Nibble := 0xF

/-! ## The other registers: PC (R24), I (R25), DT and ST (R28), FAULT (R36) -/

/-- PC <- p. -/
def State.setPc (s : State) (p : Word) : State := { s with pc := p }

/-- I <- w. -/
def State.setI (s : State) (w : Word) : State := { s with i := w }

/-- DT <- b. -/
def State.setDt (s : State) (b : Byte) : State := { s with dt := b }

/-- ST <- b. -/
def State.setSt (s : State) (b : Byte) : State := { s with st := b }

/-- FAULT <- a record. -/
def State.setFault (s : State) (r : FaultRecord) : State := { s with fault := some r }

/-! ## Memory (R50 to R58) -/

/-- What an address no cell lists reads as: the contents after construction without an image, the font at FONT_BASE
and zero elsewhere (R51, R290). -/
def initialByte (font : Font) (a : Nat) : Byte :=
  if h : a < 80 then (font[a / 5]'(by omega))[a % 5]'(Nat.mod_lt _ (by omega)) else 0

/-- The byte a list of cells holds at an address. -/
def memRead (font : Font) : List Host.Cell → Nat → Byte
  | [], a => initialByte font a
  | (b, w) :: rest, a => if a = b then w else memRead font rest a

/-- A list of cells with one byte written; the canonical form is kept (addresses rising, no cell that an unlisted
address would read as). -/
def memWrite (font : Font) : List Host.Cell → Nat → Byte → List Host.Cell
  | [], a, v => if v = initialByte font a then [] else [(a, v)]
  | (b, w) :: rest, a, v =>
    if a < b then (if v = initialByte font a then (b, w) :: rest else (a, v) :: (b, w) :: rest)
    else if a = b then (if v = initialByte font a then rest else (a, v) :: rest)
    else (b, w) :: memWrite font rest a v

/-- Bytes written at ascending addresses from `a` (R54). -/
def memWriteList (font : Font) (m : List Host.Cell) (a : Nat) : List Byte → List Host.Cell
  | [] => m
  | b :: bs => memWriteList font (memWrite font m a b) (a + 1) bs

/-- Every listed address lies in `lo` .. 0xFFF, the addresses rise strictly, and no cell holds what an unlisted
address reads as. -/
def memWfFrom (font : Font) : Nat → List Host.Cell → Bool
  | _, [] => true
  | lo, (a, v) :: rest => decide (lo ≤ a) && decide (a < memSize) && (v != initialByte font a) && memWfFrom font (a + 1) rest

/-- The canonical form of memory. -/
def Memory.wf (font : Font) (m : List Host.Cell) : Bool := memWfFrom font 0 m

/-- M[a] (R50); addresses are nats (R52). -/
def State.readByte (s : State) (a : Nat) : Byte := memRead s.params.font s.mem a

/-- M[a .. a + n - 1], at ascending addresses (R54). -/
def State.readBytes (s : State) (a n : Nat) : List Byte := (List.range n).map fun k => s.readByte (a + k)

/-- M[a .. ] <- bs, at ascending addresses; the caller has checked the range (R11, R53). -/
def State.writeBytes (s : State) (a : Nat) (bs : List Byte) : State :=
  { s with mem := memWriteList s.params.font s.mem a bs }

/-- The bounds check of R52 and R53 over the n addresses a, a + 1, ...: the least of them above 0xFFF, if there is
one (R255). -/
def firstOutOfRange (a n : Nat) : Option Nat := ((List.range n).map fun k => a + k).find? fun b => decide (b > 0xFFF)

/-! ## The call stack (R26) -/

/-- Push: the caller has checked SP < STACK_DEPTH. -/
def State.push (s : State) (w : Word) : State := { s with stack := s.stack.set s.sp w, sp := s.sp + 1 }

/-- The entry a pop takes, STACK[SP - 1]. (Of a stack shorter than SP, which no run reaches, it is 0; log 24.) -/
def State.top (s : State) : Word := s.stack.getD (s.sp - 1) 0

/-- Pop: the caller has checked SP > 0. The entry stays where it is, unobservable (R26). -/
def State.pop (s : State) : State := { s with sp := s.sp - 1 }

/-! ## The program counter (R103, R104) -/

/-- The PC action an instruction rule ends with (R103). -/
inductive PcAction where
  | next
  | skip
  | hold
  | jump (t : Word)
  | ret (v : Word)
deriving DecidableEq, Repr

/-- R104. After a successful fetch no sum leaves 16 bits. -/
def nextPc (pc : Word) : PcAction → Word
  | .next => pc + 2
  | .skip => pc + 4
  | .hold => pc
  | .jump t => t
  | .ret v => v + 2

/-- An instruction rule is done: the next PC is chosen and the tick goes on (R100). -/
def State.finish (s : State) (act : PcAction) : Result := .next (s.setPc (nextPc s.pc act))

/-! ## Faults (R250 to R253) -/

/-- The numeric code of an error kind (R250). -/
def FaultKind.code : FaultKind → Nat
  | .unknownOpcode => 1
  | .stackUnderflow => 2
  | .stackOverflow => 3
  | .memoryBoundsViolation => 4
  | .keyIndexViolation => 5

/-- `raise Fault(kind, info)` (R251): FAULT is set and nothing else changes, PC included. This hardware has no handler
to enter and no return from a fault (R257). -/
def State.raise (s : State) (kind : FaultKind) (addr : Option Nat) : Result :=
  .next (s.setFault { kind := kind, pc := s.pc, addr := addr })

/-! ## The random source (R181) -/

/-- The byte the source answers to the next request: the next seeded answer, or the free value (log 7). -/
def State.nextRandom (s : State) : Byte :=
  match s.rngQueue with
  | b :: _ => b
  | [] => Config.freeRandom s.rngDraws

/-- The state after one draw. -/
def State.afterDraw (s : State) : State := { s with rngQueue := s.rngQueue.tail, rngDraws := s.rngDraws + 1 }

end Sys2Proof.Machine
end

