-- ==== Sys2Proof/Machine/Operands.lean ====
section
/-! DEFINITION. The operand forms (30_encoding.md R75, R76; 45_index_memory.md): immediates, the address "I plus a
small offset", the font glyph, the key number, the BCD digits, the register range. -/

namespace Sys2Proof.Machine

open Sys2Proof

/-- nnn zero-extended to 16 bits (R75). -/
def zextNNN (nnn : Addr12) : Word := nnn.setWidth 16

/-- A byte zero-extended to 16 bits (R9). -/
def zextByte (b : Byte) : Word := b.setWidth 16

/-- The address in I, as a nat to which offsets are added (R52). -/
def State.iAddr (s : State) : Nat := s.i.toNat

/-- FONT_BASE + 5 * (b & 0x0F) (R187). -/
def glyphAddr (b : Byte) : Word := fontBase + 5 * zextByte (b &&& 0x0F)

/-- The key a byte names, if it names one (R220, R221). -/
def keyIndex (b : Byte) : Option Nibble := if b.toNat ≤ 0xF then some (b.setWidth 4) else none

/-- KEYS[k] (R32). -/
def State.keyDown (s : State) (k : Nibble) : Bool := s.keys[k.toNat]'k.isLt

/-- The least pressed key, if any is pressed (R222; D15). -/
def State.leastKey (s : State) : Option Nibble :=
  ((List.range 16).map (BitVec.ofNat 4)).find? fun k => s.keyDown k

/-- The hundreds, tens and ones digits of a byte (R188). -/
def bcdDigits (b : Byte) : List Byte := [b / 100, (b / 10) % 10, b % 10]

/-- V[0], ..., V[x] in ascending order (R189). -/
def State.regsUpTo (s : State) (x : Nibble) : List Byte :=
  (List.range (x.toNat + 1)).map fun k => s.reg (BitVec.ofNat 4 k)

/-- for k in 0..x: V[k] <- M[a + k] (R190). -/
def State.loadRegs (s : State) (a : Nat) (x : Nibble) : State :=
  (List.range (x.toNat + 1)).foldl (fun t k => t.setReg (BitVec.ofNat 4 k) (t.readByte (a + k))) s

end Sys2Proof.Machine
end

