-- ==== Sys2Proof/Machine/Alu.lean ====
section
/-! DEFINITION. Register loads and the ALU (43_alu.md). Operands are read before any write (40_tick_cycle.md R102);
a flag is written after the result, so that it stands when x = 0xF (10_state.md R23). -/

namespace Sys2Proof.Machine

open Sys2Proof

/-- Writes a result and no flag. -/
def State.putResult (s : State) (x : Nibble) (result : Byte) : Result := (s.setReg x result).finish .next

/-- Writes a result to Vx and then a flag to VF (R22, R23). -/
def State.putResultFlag (s : State) (x : Nibble) (result flagByte : Byte) : Result :=
  ((s.setReg x result).setReg vf flagByte).finish .next

/-- LD Vx, kk (R150). -/
def execLdImm (x : Nibble) (kk : Byte) (s : State) : Result := s.putResult x kk

/-- ADD Vx, kk, without a flag (R151). -/
def execAddImm (x : Nibble) (kk : Byte) (s : State) : Result := s.putResult x (s.reg x + kk)

/-- LD Vx, Vy (R152). -/
def execLdReg (x y : Nibble) (s : State) : Result := s.putResult x (s.reg y)

/-- OR Vx, Vy (R153). -/
def execOr (x y : Nibble) (s : State) : Result := s.putResult x (s.reg x ||| s.reg y)

/-- AND Vx, Vy (R154). -/
def execAnd (x y : Nibble) (s : State) : Result := s.putResult x (s.reg x &&& s.reg y)

/-- XOR Vx, Vy (R155). -/
def execXor (x y : Nibble) (s : State) : Result := s.putResult x (s.reg x ^^^ s.reg y)

/-- ADD Vx, Vy with the carry in VF (R156). -/
def execAddReg (x y : Nibble) (s : State) : Result :=
  s.putResultFlag x (s.reg x + s.reg y) (carryFlag (s.reg x) (s.reg y))

/-- SUB Vx, Vy: Vx - Vy (R157). -/
def execSub (x y : Nibble) (s : State) : Result :=
  s.putResultFlag x (s.reg x - s.reg y) (noBorrowFlag (s.reg x) (s.reg y))

/-- SHR Vx; Vy is ignored (R158). -/
def execShr (x _y : Nibble) (s : State) : Result := s.putResultFlag x (s.reg x >>> 1) (shiftRightFlag (s.reg x))

/-- SUBN Vx, Vy: Vy - Vx (R159). -/
def execSubn (x y : Nibble) (s : State) : Result :=
  s.putResultFlag x (s.reg y - s.reg x) (noBorrowFlag (s.reg y) (s.reg x))

/-- SHL Vx; Vy is ignored (R160). -/
def execShl (x _y : Nibble) (s : State) : Result := s.putResultFlag x (s.reg x <<< 1) (shiftLeftFlag (s.reg x))

end Sys2Proof.Machine
end

