-- ==== Sys2Proof/Machine/ControlFlow.lean ====
section
/-! DEFINITION. Control flow: SYS, JP, CALL, RET, JP V0 (41_control_flow.md), and the INVALID class (60_exceptions.md
R254). -/

namespace Sys2Proof.Machine

open Sys2Proof

/-- SYS nnn, a no-op (R120). -/
def execSys (_nnn : Addr12) (s : State) : Result := s.finish .next

/-- JP nnn (R121). -/
def execJp (nnn : Addr12) (s : State) : Result := s.finish (.jump (zextNNN nnn))

/-- CALL nnn: pushes the CALL's own address (R122, R27). -/
def execCall (nnn : Addr12) (s : State) : Result :=
  if s.sp < s.params.stackDepth then (s.push s.pc).finish (.jump (zextNNN nnn)) else s.raise .stackOverflow none

/-- RET: pops the CALL's address, to which 2 is added (R123, R27). -/
def execRet (s : State) : Result :=
  if s.sp > 0 then s.pop.finish (.ret s.top) else s.raise .stackUnderflow none

/-- JP V0, nnn: the sum is not reduced modulo 4096 (R124). -/
def execJpV0 (nnn : Addr12) (s : State) : Result := s.finish (.jump (zextByte (s.reg 0) + zextNNN nnn))

/-- The INVALID class (R254). -/
def execInvalid (s : State) : Result := s.raise .unknownOpcode none

end Sys2Proof.Machine
end

