-- ==== Sys2Proof/Machine/IndexMemory.lean ====
section
/-! DEFINITION. The index register and the memory transfers (45_index_memory.md). -/

namespace Sys2Proof.Machine

open Sys2Proof

/-- Runs `k` if the n addresses from I exist, else raises with the least that does not (R52, R53, R255). -/
def State.withRange (s : State) (n : Nat) (k : Result) : Result :=
  match firstOutOfRange s.iAddr n with
  | some a => s.raise .memoryBoundsViolation (some a)
  | none => k

/-- LD I, nnn (R185). -/
def execLdI (nnn : Addr12) (s : State) : Result := (s.setI (zextNNN nnn)).finish .next

/-- ADD I, Vx: 16-bit wrap, no flag (R186). -/
def execAddIVx (x : Nibble) (s : State) : Result := (s.setI (s.i + zextByte (s.reg x))).finish .next

/-- LD F, Vx (R187). -/
def execLdFVx (x : Nibble) (s : State) : Result := (s.setI (glyphAddr (s.reg x))).finish .next

/-- LD B, Vx (R188). -/
def execLdBVx (x : Nibble) (s : State) : Result :=
  s.withRange 3 ((s.writeBytes s.iAddr (bcdDigits (s.reg x))).finish .next)

/-- LD [I], Vx (R189). I is unchanged. -/
def execLdMemVx (x : Nibble) (s : State) : Result :=
  s.withRange (x.toNat + 1) ((s.writeBytes s.iAddr (s.regsUpTo x)).finish .next)

/-- LD Vx, [I] (R190). I is unchanged. -/
def execLdVxMem (x : Nibble) (s : State) : Result :=
  s.withRange (x.toNat + 1) ((s.loadRegs s.iAddr x).finish .next)

end Sys2Proof.Machine
end

