-- ==== Sys2Proof/Machine/Display.lean ====
section
/-! DEFINITION. The display and the sprite engine (48_display.md). -/

namespace Sys2Proof.Machine

open Sys2Proof

/-- The display buffer (10_state.md R30). -/
abbrev Display := Vector (BitVec 64) 32

/-- DISP[k], the cell at column k mod 64 of row k / 64 (R30). -/
def cellOf (d : Display) (k : Nat) : Bool := if h : k < 2048 then (d[k / 64]'(by omega)).getLsbD (k % 64) else false

/-- DISP[k] <- DISP[k] XOR 1. -/
def toggle (d : Display) (k : Nat) : Display :=
  if h : k < 2048 then d.set (k / 64) (d[k / 64]'(by omega) ^^^ (1#64 <<< (k % 64))) (by omega) else d

/-- The cell of a sprite pixel at the nat coordinates (X, Y) under DRAW_EDGE (R232). -/
def spriteCell (edge : DrawEdge) (x y : Nat) : Nat :=
  match edge with
  | .clampAxis => min x 63 + 64 * min y 31
  | .clampLinear => min (x + 64 * y) 2047
  | .wrap => x % 64 + 64 * (y % 32)

/-- The columns of the set pixels of a row byte: bit 7 is column 0 (R231; D9). -/
def rowColumns (row : Byte) : List Nat := (List.range 8).filter fun c => row.getLsbD (7 - c)

/-- The cells a sprite toggles, row by row from the top, each row from the left; X0 + c and Y0 + r are nats (R231). -/
def spriteCells (edge : DrawEdge) (x0 y0 : Nat) : List Byte → List Nat
  | [] => []
  | row :: rows => (rowColumns row).map (fun c => spriteCell edge (x0 + c) y0) ++ spriteCells edge x0 (y0 + 1) rows

/-- One toggle: a collision where it turns a set cell off (R231). -/
def toggleStep (p : Display × Bool) (k : Nat) : Display × Bool := (toggle p.1 k, p.2 || cellOf p.1 k)

/-- All the toggles of a sprite, in order, and whether one of them collided (R231). -/
def applyToggles (d : Display) (cells : List Nat) : Display × Bool := cells.foldl toggleStep (d, false)

/-- DISP <- d, REDRAW <- true (R230, R231). -/
def State.setDisp (s : State) (d : Display) : State := { s with disp := d, redraw := true }

/-- CLS (R230). -/
def execCls (s : State) : Result := (s.setDisp (Vector.replicate 32 0)).finish .next

/-- What DRW draws: the display and the collision after the sprite's toggles (R231). -/
def State.drawn (s : State) (x y n : Nibble) : Display × Bool :=
  applyToggles s.disp
    (spriteCells s.params.drawEdge (s.reg x).toNat (s.reg y).toNat (s.readBytes s.iAddr n.toNat))

/-- DRW Vx, Vy, n (R231). -/
def execDrw (x y n : Nibble) (s : State) : Result :=
  s.withRange n.toNat
    (((s.setDisp (s.drawn x y n).1).setReg vf (flag (s.drawn x y n).2)).finish .next)

end Sys2Proof.Machine
end

