-- ==== Sys2Proof/Machine/Skip.lean ====
section
/-! DEFINITION. The conditional skips (42_skip.md). -/

namespace Sys2Proof.Machine

open Sys2Proof

/-- Ends a skip: PC + 4 where the condition holds, PC + 2 elsewhere (R103). -/
def State.skipIf (s : State) (c : Bool) : Result := s.finish (if c then .skip else .next)

/-- SE Vx, kk (R140). -/
def execSeImm (x : Nibble) (kk : Byte) (s : State) : Result := s.skipIf (s.reg x == kk)

/-- SNE Vx, kk (R141). -/
def execSneImm (x : Nibble) (kk : Byte) (s : State) : Result := s.skipIf (s.reg x != kk)

/-- SE Vx, Vy; the low nibble has no effect (R142). -/
def execSeReg (x y _n : Nibble) (s : State) : Result := s.skipIf (s.reg x == s.reg y)

/-- SNE Vx, Vy; the low nibble has no effect (R143). -/
def execSneReg (x y _n : Nibble) (s : State) : Result := s.skipIf (s.reg x != s.reg y)

end Sys2Proof.Machine
end

