-- ==== Sys2Proof/Machine/Keys.lean ====
section
/-! DEFINITION. Key input (47_keys.md). -/

namespace Sys2Proof.Machine

open Sys2Proof

/-- SKP Vx (R220). -/
def execSkp (x : Nibble) (s : State) : Result :=
  match keyIndex (s.reg x) with
  | some k => s.skipIf (s.keyDown k)
  | none => s.raise .keyIndexViolation none

/-- SKNP Vx (R221). -/
def execSknp (x : Nibble) (s : State) : Result :=
  match keyIndex (s.reg x) with
  | some k => s.skipIf (!s.keyDown k)
  | none => s.raise .keyIndexViolation none

/-- LD Vx, K: with no key pressed PC is held and the next tick executes this instruction again (R222). -/
def execLdVxK (x : Nibble) (s : State) : Result :=
  match s.leastKey with
  | some k => (s.setReg x (k.setWidth 8)).finish .next
  | none => s.finish .hold

end Sys2Proof.Machine
end

