-- ==== Sys2Proof/Machine/Random.lean ====
section
/-! DEFINITION. RND (44_random.md). -/

namespace Sys2Proof.Machine

open Sys2Proof

/-- RND Vx, kk: one draw whatever kk is (R180, R181). -/
def execRnd (x : Nibble) (kk : Byte) (s : State) : Result :=
  (s.afterDraw.setReg x (s.nextRandom &&& kk)).finish .next

end Sys2Proof.Machine
end

