-- ==== Sys2Proof/Machine/Timers.lean ====
section
/-! DEFINITION. The timer transfers (46_timers.md) and the timer subsystem (60_exceptions.md R265 to R268). -/

namespace Sys2Proof.Machine

open Sys2Proof

/-- LD Vx, DT (R210). -/
def execLdVxDt (x : Nibble) (s : State) : Result := (s.setReg x s.dt).finish .next

/-- LD DT, Vx (R211). -/
def execLdDtVx (x : Nibble) (s : State) : Result := (s.setDt (s.reg x)).finish .next

/-- LD ST, Vx (R212). -/
def execLdStVx (x : Nibble) (s : State) : Result := (s.setSt (s.reg x)).finish .next

/-- How many whole time-steps of 1/60 second a time holds: floor(t * 60) (R266). -/
def timeSteps (t : Rat) : Nat := (t * 60).floor.toNat

/-- A timer after q decrements, clamped at zero (R266). -/
def countDown (t : Byte) (q : Nat) : Byte := BitVec.ofNat 8 (t.toNat - q)

/-- `advance(elapsed)` in the closed form R266 gives: q = floor((ACC + elapsed) * 60). -/
def State.advanceTimers (s : State) (elapsed : Rat) : State :=
  { s with
    dt := countDown s.dt (timeSteps (s.acc + elapsed))
    st := countDown s.st (timeSteps (s.acc + elapsed))
    acc := s.acc + elapsed - timeSteps (s.acc + elapsed) / 60 }

end Sys2Proof.Machine
end

