-- ==== Sys2Proof/Machine/Tick.lean ====
section
/-! DEFINITION. The tick cycle (40_tick_cycle.md R100, R101). -/

namespace Sys2Proof.Machine

open Sys2Proof

/-- Before the tick the host writes KEYS and chooses elapsed (R108, R280): its next pending interaction, or none, and
then both signals stay as they stand (log 9). -/
def State.acceptInput (s : State) : State :=
  match s.pending with
  | [] => s
  | inp :: rest => { s with keys := inp.keys, elapsed := inp.elapsed, pending := rest }

/-- The state in which a tick fetches and executes: the host's input accepted and REDRAW cleared (R100). -/
def State.beginTick (s : State) : State := { s.acceptInput with redraw := false }

/-- Fetch (R101): the two bytes at PC, high byte first, or the least address that does not exist. -/
def State.fetch (s : State) : Except Nat (Byte × Byte) :=
  match firstOutOfRange s.pc.toNat 2 with
  | some a => .error a
  | none => .ok (s.readByte s.pc.toNat, s.readByte (s.pc.toNat + 1))

/-- The end of a tick: the timers advance unless the tick faulted (R100, R251, R265). -/
def State.endTick (s : State) : State :=
  match s.fault with
  | some _ => s
  | none => s.advanceTimers s.elapsed

/-- Ends the tick of an executed instruction. -/
def endTickOf : Result → Result
  | .next s => .next s.endTick
  | .fault r => .fault r
  | .refused r => .refused r

/-- The word fetched, decoded and executed (R100). -/
def State.fetchExecute (s : State) : Result :=
  match s.fetch with
  | .error a => s.raise .memoryBoundsViolation (some a)
  | .ok (hi, lo) =>
    match decode s.params.strict59 hi lo with
    | .error _ => execInvalid s
    | .ok i => exec i s

/-- One tick (R100). A faulted machine returns its fault and changes nothing (R253); a negative elapsed is refused
(R280; log 10). -/
def tick (s : State) : Result :=
  match s.fault with
  | some r => .fault (.fatal r)
  | none => if s.acceptInput.elapsed < 0 then .refused .negativeElapsed else endTickOf s.beginTick.fetchExecute

/-- The bytes of an instruction word stored where the next tick fetches, and that tick made able to run: a machine
that would not fetch there (FAULT set, or PC past the last word of memory) has its FAULT cleared and its PC at
PC_RESET (log 22). -/
def State.placeWord (s : State) (op : Word) : State :=
  let pc := if s.pc.toNat + 1 ≤ 0xFFF then s.pc else pcReset
  { s with pc := pc, fault := none }.writeBytes pc.toNat [hiByte op, loByte op]

end Sys2Proof.Machine
end

