-- ==== Sys2Proof/Machine/Step.lean ====
section
/-! DEFINITION. The step of the machine, one tick (40_tick_cycle.md R100), and the host's placing of an instruction. -/

namespace Sys2Proof.Machine

open Sys2Proof

/-- One step is one tick (00_scope.md R6). -/
def step (s : State) : Host.Outcome State Fault Refusal := tick s

/-- `s` with the word `w` of a table row where the next step fetches. -/
def State.withFetchWord (s : State) (nbits w : Nat) : State := s.placeWord (BitVec.ofNat 16 (w % 2 ^ nbits))

end Sys2Proof.Machine
end

