-- ==== Sys2Proof/Machine/HostInterface.lean ====
section
/-! DEFINITION. What the host does to the core and reads from it (60_exceptions.md R271, R274, R280;
70_reset_and_hazards.md R290). -/

namespace Sys2Proof.Machine

open Sys2Proof

/-- `construct(image)` (R290): no machine exists for an image over PROG_MAX bytes. -/
def State.construct (p : Params) (image : List Byte) : Option State :=
  if image.length ≤ progMax then
    some ({ State.reset with params := p, stack := List.replicate p.stackDepth 0 }.writeBytes progBase image)
  else none

/-- Queues what the host will hand over at the next ticks (R280). -/
def State.supply (s : State) (inputs : List HostInput) : State := { s with pending := s.pending ++ inputs }

/-- Seeds the random source (R181). -/
def State.seed (s : State) (answers : List Byte) : State := { s with rngQueue := s.rngQueue ++ answers }

/-- `tick(elapsed)` with the key array the host wrote before it (R100, R271). -/
def tickWith (inp : HostInput) (s : State) : Result := step { s with pending := inp :: s.pending }

/-- The `result` signal after a tick: ok, or the fault record (R252, R271). -/
def State.result (s : State) : Option FaultRecord := s.fault

/-- The `disp` signal: the cell at column x of row y (R30, R234). -/
def State.pixel (s : State) (x y : Nat) : Bool := cellOf s.disp (x + 64 * y)

/-- The debug snapshot (R274). -/
structure DebugSnapshot where
  pc : Word
  /-- The decoded record of the instruction at PC; none where no instruction can be fetched there, PC being above 0xFFE,
  of which the spec says nothing (DESIGN CHOICE, log 31). -/
  decoded : Option Decoded
  v : Vector Byte 16
  dt : Byte
  st : Byte
  i : Word
deriving DecidableEq, Repr

/-- The snapshot the host may read between ticks (R108, R274). That it shows no record where PC is above 0xFFE is the
model's choice (DESIGN CHOICE, log 31). -/
def State.debug (s : State) : DebugSnapshot where
  pc := s.pc
  decoded := match s.fetch with
    | .ok (hi, lo) => some (decodeRecord s.params.strict59 (opOf hi lo))
    | .error _ => none
  v := s.v
  dt := s.dt
  st := s.st
  i := s.i

end Sys2Proof.Machine
end

