-- ==== Sys2Proof/Safety.lean ====
section
/-! DEFINITION. The terms claims are stated in: what a run may reach (the invariant), what may change (the frame), which
instruction may write or raise what, and the timer loop the closed form stands for. -/

namespace Sys2Proof.Machine

open Sys2Proof

/-! ## The invariant of reachable states -/

/-- What every state reached from a construction satisfies. -/
structure State.Inv (s : State) : Prop where
  /-- Memory has its canonical form (log 23) and lists no address outside 0x000..0xFFF (R50). -/
  memory : Memory.wf s.params.font s.mem = true
  /-- STACK has STACK_DEPTH entries (R26). -/
  stackLength : s.stack.length = s.params.stackDepth
  /-- SP is in 0..STACK_DEPTH (R26). -/
  depth : s.sp ≤ s.params.stackDepth
  /-- Every entry held is the address of a fetched CALL, at most 0xFFE (R27, R104). -/
  returnSites : ∀ k w, k < s.sp → s.stack[k]? = some w → w.toNat ≤ 0xFFE
  /-- PC is at most 0x10FE (R104). -/
  pcRange : s.pc.toNat ≤ 0x10FE
  /-- 0 <= ACC (R29). -/
  accNonneg : 0 ≤ s.acc
  /-- ACC < 1/60 (R29). -/
  accBound : s.acc < 1 / 60
  /-- A fault record names the PC the machine stopped at (R36, R251). -/
  faultPc : ∀ r, s.fault = some r → r.pc = s.pc
  /-- A fault record has an address exactly where its kind is MemoryBoundsViolation (R36). -/
  faultAddr : ∀ r, s.fault = some r → (r.addr.isSome = true ↔ r.kind = .memoryBoundsViolation)
  /-- That address is outside memory (R52). -/
  faultAddrRange : ∀ r a, s.fault = some r → r.addr = some a → 0xFFF < a

/-- A run of `k` ticks that no fault ends: what "a successful run" means (R253: a faulted state is not the final state of
one). -/
def SafeRun (k : Nat) (s : State) : Prop := ∃ t, Sys2Proof.core.run k s = .next t ∧ t.fault = none

/-! ## Frames -/

/-- The parts of the state an instruction may write, beside the general registers and PC. -/
inductive Field where
  | index
  | stack
  | delay
  | sound
  | display
  | redraw
  | memory
  | random
  | fault
deriving DecidableEq, Repr

/-- Everything but PC, the registers `regs` and the fields `fields` is in `t` what it was in `s`. ACC, KEYS, the
parameters and the host's inputs are written by no instruction, so no list can name them. Memory is compared byte by
byte. -/
structure Frame (regs : List Nibble) (fields : List Field) (s t : State) : Prop where
  regs : ∀ r, r ∉ regs → t.reg r = s.reg r
  index : Field.index ∉ fields → t.i = s.i
  depth : Field.stack ∉ fields → t.sp = s.sp
  stack : Field.stack ∉ fields → t.stack = s.stack
  delay : Field.delay ∉ fields → t.dt = s.dt
  sound : Field.sound ∉ fields → t.st = s.st
  display : Field.display ∉ fields → t.disp = s.disp
  redraw : Field.redraw ∉ fields → t.redraw = s.redraw
  memory : Field.memory ∉ fields → ∀ a, t.readByte a = s.readByte a
  rngQueue : Field.random ∉ fields → t.rngQueue = s.rngQueue
  rngDraws : Field.random ∉ fields → t.rngDraws = s.rngDraws
  fault : Field.fault ∉ fields → t.fault = s.fault
  acc : t.acc = s.acc
  keys : t.keys = s.keys
  params : t.params = s.params
  elapsed : t.elapsed = s.elapsed
  pending : t.pending = s.pending

/-- The general registers an instruction may write (10_state.md R21). -/
def regsWritten : Instr → List Nibble
  | .ldImm x _ | .addImm x _ | .ldReg x _ | .orReg x _ | .andReg x _ | .xorReg x _ | .rnd x _ | .ldVxDt x
  | .ldVxK x => [x]
  | .addReg x _ | .sub x _ | .shr x _ | .subn x _ | .shl x _ => [x, 0xF]
  | .ldVxMem x => (List.range (x.toNat + 1)).map (BitVec.ofNat 4)
  | .drw _ _ _ => [0xF]
  | .sys _ | .cls | .ret | .jp _ | .call _ | .seImm _ _ | .sneImm _ _ | .seReg _ _ _ | .sneReg _ _ _ | .ldI _ | .jpV0 _
  | .skp _ | .sknp _ | .ldDtVx _ | .ldStVx _ | .addIVx _ | .ldFVx _ | .ldBVx _ | .ldMemVx _ => []

/-- The general registers an instruction reads as operands (30_encoding.md R74, R76). -/
def regsRead : Instr → List Nibble
  | .seImm x _ | .sneImm x _ | .addImm x _ | .shr x _ | .shl x _ | .skp x | .sknp x | .ldDtVx x | .ldStVx x | .addIVx x
  | .ldFVx x | .ldBVx x => [x]
  | .seReg x y _ | .sneReg x y _ | .orReg x y | .andReg x y | .xorReg x y | .addReg x y | .sub x y | .subn x y
  | .drw x y _ => [x, y]
  | .ldReg _ y => [y]
  | .jpV0 _ => [0x0]
  | .ldMemVx x => (List.range (x.toNat + 1)).map (BitVec.ofNat 4)
  | .sys _ | .cls | .ret | .jp _ | .call _ | .ldImm _ _ | .ldI _ | .rnd _ _ | .ldVxDt _ | .ldVxK _ | .ldVxMem _ => []

/-- The error kind an instruction can raise, if any (60_exceptions.md R255). -/
def raises : Instr → Option FaultKind
  | .ret => some .stackUnderflow
  | .call _ => some .stackOverflow
  | .drw _ _ _ | .ldBVx _ | .ldMemVx _ | .ldVxMem _ => some .memoryBoundsViolation
  | .skp _ | .sknp _ => some .keyIndexViolation
  | .sys _ | .cls | .jp _ | .seImm _ _ | .sneImm _ _ | .seReg _ _ _ | .sneReg _ _ _ | .ldImm _ _ | .addImm _ _
  | .ldReg _ _ | .orReg _ _ | .andReg _ _ | .xorReg _ _ | .addReg _ _ | .sub _ _ | .shr _ _ | .subn _ _ | .shl _ _
  | .ldI _ | .jpV0 _ | .rnd _ _ | .ldVxDt _ | .ldVxK _ | .ldDtVx _ | .ldStVx _ | .addIVx _ | .ldFVx _ => none

/-- The fields an instruction writes when it raises nothing (R21 to R32, R57, R181). -/
def ownFields : Instr → List Field
  | .ldI _ | .addIVx _ | .ldFVx _ => [.index]
  | .call _ | .ret => [.stack]
  | .ldDtVx _ => [.delay]
  | .ldStVx _ => [.sound]
  | .cls | .drw _ _ _ => [.display, .redraw]
  | .ldBVx _ | .ldMemVx _ => [.memory]
  | .rnd _ _ => [.random]
  | .sys _ | .jp _ | .seImm _ _ | .sneImm _ _ | .seReg _ _ _ | .sneReg _ _ _ | .ldImm _ _ | .addImm _ _ | .ldReg _ _
  | .orReg _ _ | .andReg _ _ | .xorReg _ _ | .addReg _ _ | .sub _ _ | .shr _ _ | .subn _ _ | .shl _ _ | .jpV0 _
  | .skp _ | .sknp _ | .ldVxDt _ | .ldVxK _ | .ldVxMem _ => []

/-- The fields an instruction may write, FAULT where it can raise. -/
def fieldsWritten (i : Instr) : List Field := ownFields i ++ (if (raises i).isSome then [.fault] else [])

/-- Where a skip's condition holds in a state (42_skip.md R140 to R143, 47_keys.md R220, R221); a key skip whose Vx names
no key has no condition. Of an instruction that is no skip it is false. -/
def skipHolds (s : State) : Instr → Prop
  | .seImm x kk => s.reg x = kk
  | .sneImm x kk => s.reg x ≠ kk
  | .seReg x y _ => s.reg x = s.reg y
  | .sneReg x y _ => s.reg x ≠ s.reg y
  | .skp x => ∃ k : Nibble, (s.reg x).toNat = k.toNat ∧ s.keyDown k = true
  | .sknp x => ∃ k : Nibble, (s.reg x).toNat = k.toNat ∧ s.keyDown k = false
  | .sys _ | .cls | .ret | .jp _ | .call _ | .ldImm _ _ | .addImm _ _ | .ldReg _ _ | .orReg _ _ | .andReg _ _
  | .xorReg _ _ | .addReg _ _ | .sub _ _ | .shr _ _ | .subn _ _ | .shl _ _ | .ldI _ | .jpV0 _ | .rnd _ _ | .drw _ _ _
  | .ldVxDt _ | .ldVxK _ | .ldDtVx _ | .ldStVx _ | .addIVx _ | .ldFVx _ | .ldBVx _ | .ldMemVx _ | .ldVxMem _ => False

/-- How many bytes an instruction stores, from the address in I on (20_memory.md R57). -/
def bytesStored : Instr → Nat
  | .ldBVx _ => 3
  | .ldMemVx x => x.toNat + 1
  | .sys _ | .cls | .ret | .jp _ | .call _ | .seImm _ _ | .sneImm _ _ | .seReg _ _ _ | .ldImm _ _ | .addImm _ _
  | .ldReg _ _ | .orReg _ _ | .andReg _ _ | .xorReg _ _ | .addReg _ _ | .sub _ _ | .shr _ _ | .subn _ _ | .shl _ _
  | .sneReg _ _ _ | .ldI _ | .jpV0 _ | .rnd _ _ | .drw _ _ _ | .skp _ | .sknp _ | .ldVxDt _ | .ldVxK _ | .ldDtVx _
  | .ldStVx _ | .addIVx _ | .ldFVx _ | .ldVxMem _ => 0

/-- Whether an instruction draws (48_display.md R234). -/
def draws : Instr → Bool
  | .cls | .drw _ _ _ => true
  | .sys _ | .ret | .jp _ | .call _ | .seImm _ _ | .sneImm _ _ | .seReg _ _ _ | .ldImm _ _ | .addImm _ _ | .ldReg _ _
  | .orReg _ _ | .andReg _ _ | .xorReg _ _ | .addReg _ _ | .sub _ _ | .shr _ _ | .subn _ _ | .shl _ _ | .sneReg _ _ _
  | .ldI _ | .jpV0 _ | .rnd _ _ | .skp _ | .sknp _ | .ldVxDt _ | .ldVxK _ | .ldDtVx _ | .ldStVx _ | .addIVx _
  | .ldFVx _ | .ldBVx _ | .ldMemVx _ | .ldVxMem _ => false

/-! ## References for the timers and the sprite engine -/

/-- The while loop of R266, at most `fuel` times round: each round holds one time-step of 1/60 second, counts both
timers down by one, clamped at zero, and takes the step off ACC. -/
def timerLoop : Nat → State → State
  | 0, s => s
  | fuel + 1, s =>
    if 1 / 60 ≤ s.acc then
      timerLoop fuel
        { s with
          dt := if s.dt.toNat > 0 then s.dt - 1 else 0
          st := if s.st.toNat > 0 then s.st - 1 else 0
          acc := s.acc - 1 / 60 }
    else s

/-- How many set pixels of the sprite DRW Vx, Vy, n reads in `s` fall on cell `k` (R231, R232): over the rows r and the
columns c, the set bits 7 - c of M[I + r] whose cell at (Vx + c, Vy + r) is k. -/
def togglesOf (s : State) (x y n : Nibble) (k : Nat) : Nat :=
  ((List.range n.toNat).map fun r => ((List.range 8).filter fun c =>
    (s.readByte (s.i.toNat + r)).getLsbD (7 - c) &&
      spriteCell s.params.drawEdge ((s.reg x).toNat + c) ((s.reg y).toNat + r) == k).length).sum

end Sys2Proof.Machine
end

