-- ==== Sys2Proof/Certificates/Slice0/Obligations.lean ====
section
/-! DEFINITION. The statements for the provers (OBLIGATIONS.json lists them). -/

open Sys2Proof Sys2Proof.Machine

/-! ## Encoding and decoding -/

/-- Words written out from the opcode map (30_encoding.md section 3; 95_test_vectors.md 2.1), one or more of each of the
16 families, decode to what the map says. The patterns not in the source are the spec's general knowledge (log 6), the
words with a low nibble in families 5 and 9 rest on D5 (log 4). -/
def Obligations.DecodeOfWordsOfTheMap : Prop :=
  (∀ strict,
    decode strict 0x01 0x23 = .ok (.sys 0x123) ∧ decode strict 0x00 0xE0 = .ok .cls ∧
    decode strict 0x00 0xEE = .ok .ret ∧ decode strict 0x01 0xE0 = .ok (.sys 0x1E0) ∧
    decode strict 0x12 0x34 = .ok (.jp 0x234) ∧ decode strict 0x23 0x00 = .ok (.call 0x300) ∧
    decode strict 0x35 0x05 = .ok (.seImm 0x5 0x05) ∧ decode strict 0x45 0x06 = .ok (.sneImm 0x5 0x06) ∧
    decode strict 0x51 0x20 = .ok (.seReg 0x1 0x2 0x0) ∧ decode strict 0x60 0x0A = .ok (.ldImm 0x0 0x0A) ∧
    decode strict 0x73 0x02 = .ok (.addImm 0x3 0x02) ∧ decode strict 0x80 0x14 = .ok (.addReg 0x0 0x1) ∧
    decode strict 0x8A 0xBE = .ok (.shl 0xA 0xB) ∧ decode strict 0x91 0x20 = .ok (.sneReg 0x1 0x2 0x0) ∧
    decode strict 0xA1 0x23 = .ok (.ldI 0x123) ∧ decode strict 0xB3 0x00 = .ok (.jpV0 0x300) ∧
    decode strict 0xC3 0x0F = .ok (.rnd 0x3 0x0F) ∧ decode strict 0xD1 0x2F = .ok (.drw 0x1 0x2 0xF) ∧
    decode strict 0xE1 0xA1 = .ok (.sknp 0x1) ∧ decode strict 0xF1 0x07 = .ok (.ldVxDt 0x1) ∧
    decode strict 0xF0 0x15 = .ok (.ldDtVx 0x0) ∧ decode strict 0xF0 0x18 = .ok (.ldStVx 0x0) ∧
    decode strict 0xF1 0x65 = .ok (.ldVxMem 0x1)) ∧
  decode false 0x51 0x21 = .ok (.seReg 0x1 0x2 0x1) ∧
  decode true 0x91 0x2F = .error (.invalid ⟨.INVALID, 0x1, 0x2, 0x2F, 0x12F, 0xF⟩)

/-- R71: the fields of every word, whatever its class, by number; they overlap. -/
def Obligations.FieldsAreTheBitsOfTheWord : Prop :=
  ∀ (strict : Bool) (op : Word),
    (fieldF op).toNat = op.toNat / 0x1000 ∧
    (decodeRecord strict op).x.toNat = op.toNat / 0x100 % 0x10 ∧
    (decodeRecord strict op).y.toNat = op.toNat / 0x10 % 0x10 ∧
    (decodeRecord strict op).kk.toNat = op.toNat % 0x100 ∧
    (decodeRecord strict op).nnn.toNat = op.toNat % 0x1000 ∧
    (decodeRecord strict op).n.toNat = op.toNat % 0x10 ∧
    (decodeRecord strict op).kk = (decodeRecord strict op).y ++ (decodeRecord strict op).n ∧
    (decodeRecord strict op).nnn = (decodeRecord strict op).x ++ (decodeRecord strict op).kk

/-- The opcode map by number: the word of every instruction (30_encoding.md section 3; the patterns are the spec's
general knowledge but for three, log 6). -/
def Obligations.WordsOfTheOpcodeMap : Prop :=
  ∀ (x y n : Nibble) (kk : Byte) (nnn : Addr12),
    (encode (.sys nnn)).toNat = nnn.toNat ∧ (encode .cls).toNat = 0x00E0 ∧ (encode .ret).toNat = 0x00EE ∧
    (encode (.jp nnn)).toNat = 0x1000 + nnn.toNat ∧ (encode (.call nnn)).toNat = 0x2000 + nnn.toNat ∧
    (encode (.seImm x kk)).toNat = 0x3000 + 0x100 * x.toNat + kk.toNat ∧
    (encode (.sneImm x kk)).toNat = 0x4000 + 0x100 * x.toNat + kk.toNat ∧
    (encode (.seReg x y n)).toNat = 0x5000 + 0x100 * x.toNat + 0x10 * y.toNat + n.toNat ∧
    (encode (.ldImm x kk)).toNat = 0x6000 + 0x100 * x.toNat + kk.toNat ∧
    (encode (.addImm x kk)).toNat = 0x7000 + 0x100 * x.toNat + kk.toNat ∧
    (encode (.ldReg x y)).toNat = 0x8000 + 0x100 * x.toNat + 0x10 * y.toNat ∧
    (encode (.orReg x y)).toNat = 0x8001 + 0x100 * x.toNat + 0x10 * y.toNat ∧
    (encode (.andReg x y)).toNat = 0x8002 + 0x100 * x.toNat + 0x10 * y.toNat ∧
    (encode (.xorReg x y)).toNat = 0x8003 + 0x100 * x.toNat + 0x10 * y.toNat ∧
    (encode (.addReg x y)).toNat = 0x8004 + 0x100 * x.toNat + 0x10 * y.toNat ∧
    (encode (.sub x y)).toNat = 0x8005 + 0x100 * x.toNat + 0x10 * y.toNat ∧
    (encode (.shr x y)).toNat = 0x8006 + 0x100 * x.toNat + 0x10 * y.toNat ∧
    (encode (.subn x y)).toNat = 0x8007 + 0x100 * x.toNat + 0x10 * y.toNat ∧
    (encode (.shl x y)).toNat = 0x800E + 0x100 * x.toNat + 0x10 * y.toNat ∧
    (encode (.sneReg x y n)).toNat = 0x9000 + 0x100 * x.toNat + 0x10 * y.toNat + n.toNat ∧
    (encode (.ldI nnn)).toNat = 0xA000 + nnn.toNat ∧ (encode (.jpV0 nnn)).toNat = 0xB000 + nnn.toNat ∧
    (encode (.rnd x kk)).toNat = 0xC000 + 0x100 * x.toNat + kk.toNat ∧
    (encode (.drw x y n)).toNat = 0xD000 + 0x100 * x.toNat + 0x10 * y.toNat + n.toNat ∧
    (encode (.skp x)).toNat = 0xE09E + 0x100 * x.toNat ∧ (encode (.sknp x)).toNat = 0xE0A1 + 0x100 * x.toNat ∧
    (encode (.ldVxDt x)).toNat = 0xF007 + 0x100 * x.toNat ∧ (encode (.ldVxK x)).toNat = 0xF00A + 0x100 * x.toNat ∧
    (encode (.ldDtVx x)).toNat = 0xF015 + 0x100 * x.toNat ∧ (encode (.ldStVx x)).toNat = 0xF018 + 0x100 * x.toNat ∧
    (encode (.addIVx x)).toNat = 0xF01E + 0x100 * x.toNat ∧ (encode (.ldFVx x)).toNat = 0xF029 + 0x100 * x.toNat ∧
    (encode (.ldBVx x)).toNat = 0xF033 + 0x100 * x.toNat ∧ (encode (.ldMemVx x)).toNat = 0xF055 + 0x100 * x.toNat ∧
    (encode (.ldVxMem x)).toNat = 0xF065 + 0x100 * x.toNat

/-- Every well-formed instruction, with every operand its word admits, is what its word decodes to, under both values of
STRICT_59. -/
def Obligations.DecodeOfEncode : Prop :=
  ∀ (strict : Bool) (i : Instr), i.wf strict = true → decode strict (hiByte (encode i)) (loByte (encode i)) = .ok i

/-- The other direction: a pair of bytes that decodes to an instruction is that instruction's word, high byte first, and
the instruction is well-formed. -/
def Obligations.EncodeOfDecode : Prop :=
  ∀ (strict : Bool) (hi lo : Byte) (i : Instr), decode strict hi lo = .ok i →
    i.wf strict = true ∧ hiByte (encode i) = hi ∧ loByte (encode i) = lo

/-- The INVALID words, complete (30_encoding.md section 4; the list is the spec's derivation, STRICT_59 its D5, log 4):
exactly these are rejected, with the INVALID record of all five fields. -/
def Obligations.RejectedWordsAreTheListedOnes : Prop :=
  ∀ (strict : Bool) (op : Word),
    decode strict (hiByte op) (loByte op) = .error (.invalid (decodeRecord strict op)) ↔
      (fieldF op = 0x8 ∧ fieldN op ∈ ([0x8, 0x9, 0xA, 0xB, 0xC, 0xD, 0xF] : List Nibble)) ∨
      (fieldF op = 0xE ∧ fieldKK op ∉ ([0x9E, 0xA1] : List Byte)) ∨
      (fieldF op = 0xF ∧
        fieldKK op ∉ ([0x07, 0x0A, 0x15, 0x18, 0x1E, 0x29, 0x33, 0x55, 0x65] : List Byte)) ∨
      (strict = true ∧ (fieldF op = 0x5 ∨ fieldF op = 0x9) ∧ fieldN op ≠ 0)

/-! ## The tick -/

/-- A step runs the decoded instruction: in a machine that has not faulted, with a non-negative elapsed and two bytes at
PC that decode to `i`, the step is `exec i` after the host's input is accepted and REDRAW cleared, and then, if no fault
was raised, the timer advance by this tick's elapsed (40_tick_cycle.md section 1; exact time is D19, log 27). -/
def Obligations.StepRunsTheDecodedInstruction : Prop :=
  ∀ (s : State) (i : Instr), s.fault = none → 0 ≤ s.acceptInput.elapsed → s.pc.toNat + 1 ≤ 0xFFF →
    decode s.params.strict59 (s.readByte s.pc.toNat) (s.readByte (s.pc.toNat + 1)) = .ok i →
    ∃ t, exec i { s.acceptInput with redraw := false } = .next t ∧
      step s = .next (if t.fault = none then t.advanceTimers s.acceptInput.elapsed else t)

/-- What a tick takes from the host (60_exceptions.md R271, R280): the head of the pending interactions, KEYS and
elapsed, and nothing else of the state; with none pending, nothing (the model's choice, log 9). -/
def Obligations.TickAcceptsTheHostsInput : Prop :=
  ∀ (s : State), (s.pending = [] → s.acceptInput = s) ∧
    ∀ (inp : HostInput) (rest : List HostInput), s.pending = inp :: rest →
      s.acceptInput = { s with keys := inp.keys, elapsed := inp.elapsed, pending := rest }

/-- The instruction word is big-endian (20_memory.md, byte order): the byte at PC is the high byte of the word that is
decoded, the byte at PC + 1 its low byte, at every PC at most 0xFFE. That an odd PC is fetched like any other is the spec's
own choice (D3; log 13, DESIGN CHOICE). -/
def Obligations.InstructionWordIsBigEndian : Prop :=
  ∀ (s : State), s.pc.toNat + 1 ≤ 0xFFF →
    ∃ hi lo, s.fetch = .ok (hi, lo) ∧ hi = s.readByte s.pc.toNat ∧ lo = s.readByte (s.pc.toNat + 1) ∧
      (opOf hi lo).toNat = 256 * hi.toNat + lo.toNat ∧
      decode s.params.strict59 hi lo = (decodeRecord s.params.strict59 (opOf hi lo)).toInstr

/-- Fetch out of memory (40_tick_cycle.md section 1, the spec's D2; log 13): the tick, a next state (log 11), records
MemoryBoundsViolation with the lower of PC and PC + 1 that exceeds 0xFFF, and changes nothing else but REDRAW and the
host's inputs. -/
def Obligations.FetchOutOfMemoryFaults : Prop :=
  ∀ (s : State), s.fault = none → 0 ≤ s.acceptInput.elapsed → 0xFFF < s.pc.toNat + 1 →
    step s = .next { s.acceptInput with
      redraw := false
      fault := some ⟨.memoryBoundsViolation, s.pc, some (if 0xFFF < s.pc.toNat then s.pc.toNat else s.pc.toNat + 1)⟩ }

/-- A tick that fetches an INVALID word raises UnknownOpcode, always, and its record names the PC (60_exceptions.md
section 1; the record is the spec's D18, log 12; the next state that holds it is log 11); and a skipped word is not
executed: each of the six skips (SE and SNE on an immediate and on registers, SKP, SKNP), where its condition holds,
raises nothing and passes over the word at PC + 2, whatever stands there (42_skip.md, 47_keys.md). -/
def Obligations.InvalidWordRaisesUnknownOpcode : Prop :=
  (∀ (s : State) (d : Decoded), s.fault = none → 0 ≤ s.acceptInput.elapsed → s.pc.toNat + 1 ≤ 0xFFF →
    decode s.params.strict59 (s.readByte s.pc.toNat) (s.readByte (s.pc.toNat + 1)) = .error (.invalid d) →
    ∃ t, step s = .next t ∧ t.fault = some ⟨.unknownOpcode, s.pc, none⟩ ∧ t.pc = s.pc) ∧
  (∀ (s : State) (i : Instr), s.fault = none → 0 ≤ s.acceptInput.elapsed → s.pc.toNat + 1 ≤ 0xFFF →
    decode s.params.strict59 (s.readByte s.pc.toNat) (s.readByte (s.pc.toNat + 1)) = .ok i →
    skipHolds s.acceptInput i → ∃ t, step s = .next t ∧ t.fault = none ∧ t.pc = s.pc + 4)

/-- A faulted machine stays faulted (60_exceptions.md section 1, the spec's D31): every run of one tick or more stops
with the record it holds, so nothing of its state changes. That such a tick is the outcome fault is log 11. -/
def Obligations.FaultedMachineStaysFaulted : Prop :=
  ∀ (s : State) (r : FaultRecord) (k : Nat), s.fault = some r → Sys2Proof.core.run (k + 1) s = .fault (.fatal r)

/-- Which outcome a tick has: a next state exactly when the machine has not faulted and elapsed is not negative; the only
fault is the recorded one (60_exceptions.md section 1), the only refusal that of a negative elapsed (D19). That the tick
which first raises a fault answers a next state that holds the record, and only later ticks the outcome fault, is the
model's choice (log 11, DEDUCED), as is the order of the two checks (log 10, DESIGN CHOICE). -/
def Obligations.OutcomeOfATick : Prop :=
  ∀ (s : State),
    ((∃ t, step s = .next t) ↔ s.fault = none ∧ 0 ≤ s.acceptInput.elapsed) ∧
    (∀ f, step s = .fault f ↔ ∃ r, s.fault = some r ∧ f = .fatal r) ∧
    (∀ q, step s = .refused q ↔ s.fault = none ∧ s.acceptInput.elapsed < 0 ∧ q = .negativeElapsed)

/-- Faults are precise (60_exceptions.md section 1; the spec's D11, D18; log 12): a tick that leaves a fault, a next
state (log 11), leaves, apart from REDRAW, the host's inputs it accepted and the record, the state it found, and the
record names its PC. -/
def Obligations.FaultsArePrecise : Prop :=
  ∀ (s t : State) (r : FaultRecord), step s = .next t → t.fault = some r →
    r.pc = s.pc ∧ t = { s.acceptInput with redraw := false, fault := some r }

/-- Which instruction raises which kind (60_exceptions.md section 1): one kind at most for each, none for the others. -/
def Obligations.EachInstructionRaisesOneKindAtMost : Prop :=
  ∀ (i : Instr) (s t : State) (r : FaultRecord), s.fault = none → exec i s = .next t → t.fault = some r →
    raises i = some r.kind

/-- The codes of the five kinds (60_exceptions.md section 1; the spec's D18). -/
def Obligations.FaultCodes : Prop :=
  FaultKind.unknownOpcode.code = 1 ∧ FaultKind.stackUnderflow.code = 2 ∧ FaultKind.stackOverflow.code = 3 ∧
    FaultKind.memoryBoundsViolation.code = 4 ∧ FaultKind.keyIndexViolation.code = 5

/-- The PC action of every instruction that does not fault (40_tick_cycle.md R103), with the next PC of R104, the targets
of R121 to R124 and the conditions of R140 to R143 and R220 to R222. The jumped flag of the source is set by JP, CALL and
JP V0 alone; RET gets the default advance over the popped entry. The key wait's condition is the spec's D15 (log 17). -/
def Obligations.PcActionOfEveryInstruction : Prop :=
  ∀ (i : Instr) (s t : State), s.fault = none → exec i s = .next t → t.fault = none →
    match i with
    | .jp nnn | .call nnn => t.pc.toNat = nnn.toNat
    | .jpV0 nnn => t.pc.toNat = (s.reg 0).toNat + nnn.toNat
    | .ret => ∀ w, s.stack[s.sp - 1]? = some w → t.pc = w + 2
    | .seImm x kk => t.pc = if s.reg x = kk then s.pc + 4 else s.pc + 2
    | .sneImm x kk => t.pc = if s.reg x ≠ kk then s.pc + 4 else s.pc + 2
    | .seReg x y _ => t.pc = if s.reg x = s.reg y then s.pc + 4 else s.pc + 2
    | .sneReg x y _ => t.pc = if s.reg x ≠ s.reg y then s.pc + 4 else s.pc + 2
    | .skp x => t.pc = if s.keys[(s.reg x).toNat]? = some true then s.pc + 4 else s.pc + 2
    | .sknp x => t.pc = if s.keys[(s.reg x).toNat]? = some true then s.pc + 2 else s.pc + 4
    | .ldVxK _ => t.pc = if ∃ k : Nibble, s.keyDown k = true then s.pc + 2 else s.pc
    | _ => t.pc = s.pc + 2

/-! ## Construction and the invariant -/

/-- Construction from an image, item by item (70_reset_and_hazards.md section 1), for every choice of the parameters;
an image over 3584 bytes makes no machine. REDRAW false is the spec's D35 (log 26, DESIGN CHOICE). Every byte of
0x000..0xFFF is read through the model's list of cells (log 23). -/
def Obligations.ConstructionFromAnImage : Prop :=
  ∀ (p : Params) (image : List Byte),
    (3584 < image.length → State.construct p image = none) ∧
    (image.length ≤ 3584 → ∃ s, State.construct p image = some s ∧
      (∀ k j (hk : k < 16) (hj : j < 5), s.readByte (5 * k + j) = (p.font[k]'hk)[j]'hj) ∧
      (∀ a, 80 ≤ a → a < 0x200 → s.readByte a = 0) ∧
      (∀ k (hk : k < image.length), s.readByte (0x200 + k) = image[k]'hk) ∧
      (∀ a, 0x200 + image.length ≤ a → a ≤ 0xFFF → s.readByte a = 0) ∧
      s.pc = 0x200 ∧ (∀ r, s.reg r = 0) ∧ s.i = 0 ∧ s.sp = 0 ∧ s.stack = List.replicate p.stackDepth 0 ∧
      s.dt = 0 ∧ s.st = 0 ∧ s.acc = 0 ∧ (∀ k, cellOf s.disp k = false) ∧ s.redraw = false ∧
      (∀ k, s.keyDown k = false) ∧ s.fault = none ∧ s.params = p)

/-- The reset state of the model is the construction from an empty image with the default parameters (the defaults are
logs 1 to 4; the fields that hold the host's inputs are empty by the model's choice, logs 7 to 9). -/
def Obligations.ResetIsConstructionWithoutAnImage : Prop :=
  State.construct defaultParams [] = some State.reset ∧ State.reset.elapsed = 0 ∧ State.reset.pending = [] ∧
    State.reset.rngQueue = [] ∧ State.reset.rngDraws = 0

/-- The invariant holds at reset. -/
def Obligations.InvariantAtReset : Prop := State.reset.Inv

/-- The invariant holds of every constructed machine, whatever its parameters and its image. -/
def Obligations.InvariantAtConstruction : Prop :=
  ∀ (p : Params) (image : List Byte) (s : State), State.construct p image = some s → s.Inv

/-- Every tick keeps the invariant: canonical memory within 0x000..0xFFF, SP within STACK_DEPTH, entries held at
most 0xFFE, PC at most 0x10FE, 0 <= ACC < 1/60, and a fault record that names the PC it stopped at. -/
def Obligations.StepKeepsTheInvariant : Prop := ∀ (s t : State), s.Inv → step s = .next t → t.Inv

/-! ## Memory -/

/-- R58: a read returns the byte last written there, or the construction value, and another address is as it was; a
byte written twice is the same as once. -/
def Obligations.ReadReturnsTheByteLastWritten : Prop :=
  (∀ (s : State) (a b : Nat) (v : Byte), Memory.wf s.params.font s.mem = true →
    (s.writeBytes a [v]).readByte b = (if b = a then v else s.readByte b) ∧
    (s.writeBytes a [v]).writeBytes a [v] = s.writeBytes a [v]) ∧
  (∀ (s : State) (a : Nat), s.mem = [] → s.readByte a = initialByte s.params.font a)

/-- Memory is held once: two memories in canonical form that read the same at every address are the same data (the
canonical form is the model's choice, log 23). -/
def Obligations.EqualMemoriesAreEqualData : Prop :=
  ∀ (font : Font) (m m' : List Host.Cell), Memory.wf font m = true → Memory.wf font m' = true →
    (∀ a, memRead font m a = memRead font m' a) → m = m'

/-- The bounds check of n byte accesses from a: it passes exactly when every address is at most 0xFFF, and else gives the
least that is not (20_memory.md section 2; 60_exceptions.md R255, the spec's D28). -/
def Obligations.BoundsCheckGivesTheLeastBadAddress : Prop :=
  ∀ (a n : Nat),
    (firstOutOfRange a n = none ↔ ∀ k, k < n → a + k ≤ 0xFFF) ∧
    ∀ b, firstOutOfRange a n = some b ↔
      0xFFF < b ∧ a ≤ b ∧ b < a + n ∧ ∀ c, a ≤ c → c < b → c ≤ 0xFFF

/-! ## What every instruction leaves alone -/

/-- The frame of all 35 instructions: whatever one answers, the registers outside 10_state.md R21's list, every field no
rule says it writes, and every byte of memory but the bytes it stores from I on are as before. -/
def Obligations.EveryInstructionKeepsItsFrame : Prop :=
  ∀ (i : Instr) (s t : State), Memory.wf s.params.font s.mem = true → exec i s = .next t →
    Frame (regsWritten i) (fieldsWritten i) s t ∧
    ∀ a, (a < s.iAddr ∨ s.iAddr + bytesStored i ≤ a) → t.readByte a = s.readByte a

/-- REDRAW after a tick tells whether that tick executed DRW or CLS (48_display.md R234): a tick that runs a decoded
instruction leaves REDRAW true exactly when the instruction is one of the two and did not fault. -/
def Obligations.RedrawTellsTheLastTicksDrawing : Prop :=
  ∀ (s t : State), step s = .next t →
    (t.redraw = true ↔ t.fault = none ∧ ∃ i, draws i = true ∧
      decode s.params.strict59 (s.readByte s.pc.toNat) (s.readByte (s.pc.toNat + 1)) = .ok i)

/-- KEYS is read-only to the core (10_state.md R32): a tick leaves KEYS as the host's input left them. The other
clauses are the model's choice (DESIGN CHOICE): that a tick never changes the parameters, which State holds (log 5),
that it leaves elapsed as the host's input left it (log 8), and that it uses up one pending interaction (log 9). -/
def Obligations.KeysAreWrittenByTheHostAlone : Prop :=
  ∀ (s t : State), step s = .next t →
    t.keys = s.acceptInput.keys ∧ t.elapsed = s.acceptInput.elapsed ∧ t.pending = s.pending.tail ∧
      t.params = s.params

/-- ST, ACC and REDRAW are invisible to a program (10_state.md R29, R31; 46_timers.md R212): changing them changes nothing
an instruction does to the registers, I, PC, the stack, DT, the display, memory, the random source or FAULT. -/
def Obligations.SoundTimeAndRedrawAreInvisible : Prop :=
  ∀ (i : Instr) (s t : State) (c : Byte) (a : Rat) (b : Bool), exec i s = .next t →
    ∃ t', exec i { s with st := c, acc := a, redraw := b } = .next t' ∧
      t' = { t with st := t'.st, acc := t'.acc, redraw := t'.redraw }

/-- The stack entries at and above SP are unobservable (10_state.md R26): a tick of a machine that differs only in them
answers a state that differs only in entries at and above the new SP. -/
def Obligations.UnpushedEntriesAreUnobservable : Prop :=
  ∀ (s t : State) (l : List Word), s.Inv → l.length = s.stack.length →
    (∀ k, k < s.sp → l[k]? = s.stack[k]?) → step s = .next t →
    ∃ l', step { s with stack := l } = .next { t with stack := l' } ∧ l'.length = t.stack.length ∧
      ∀ k, k < t.sp → l'[k]? = t.stack[k]?

/-! ## Control flow and skips -/

/-- SYS is a no-op: only PC changes (41_control_flow.md, SYS). -/
def Obligations.SysIsANoOp : Prop :=
  ∀ (nnn : Addr12) (s : State), exec (.sys nnn) s = .next { s with pc := s.pc + 2 }

/-- JP and JP V0: PC is nnn, or V0 + nnn not reduced modulo 4096, and nothing else changes (41_control_flow.md). -/
def Obligations.JumpsSetPc : Prop :=
  ∀ (nnn : Addr12) (s : State),
    (∃ t, exec (.jp nnn) s = .next t ∧ t.pc.toNat = nnn.toNat ∧ Frame [] [] s t) ∧
    (∃ t, exec (.jpV0 nnn) s = .next t ∧ t.pc.toNat = (s.reg 0x0).toNat + nnn.toNat ∧ Frame [] [] s t)

/-- CALL: below the capacity it pushes its own address and jumps, the entries below staying; at the capacity it raises
StackOverflow and writes nothing (41_control_flow.md, CALL; 10_state.md R26, R27). -/
def Obligations.CallPushesItsOwnAddress : Prop :=
  ∀ (nnn : Addr12) (s : State),
    (s.sp < s.params.stackDepth → s.stack.length = s.params.stackDepth →
      ∃ t, exec (.call nnn) s = .next t ∧ t.pc.toNat = nnn.toNat ∧ t.sp = s.sp + 1 ∧
        t.stack.length = s.stack.length ∧ t.stack[s.sp]? = some s.pc ∧
        (∀ k, k ≠ s.sp → t.stack[k]? = s.stack[k]?) ∧ Frame [] [.stack] s t) ∧
    (s.params.stackDepth ≤ s.sp →
      exec (.call nnn) s = .next { s with fault := some ⟨.stackOverflow, s.pc, none⟩ })

/-- RET: with an entry held it pops it and PC is the popped address plus 2, the entries staying where they are; with none
it raises StackUnderflow and writes nothing (41_control_flow.md, RET; 10_state.md R26, R27). -/
def Obligations.ReturnPopsAndAddsTwo : Prop :=
  ∀ (s : State),
    (∀ w, 0 < s.sp → s.stack[s.sp - 1]? = some w →
      ∃ t, exec .ret s = .next t ∧ t.pc = w + 2 ∧ t.sp = s.sp - 1 ∧ t.stack = s.stack ∧ Frame [] [.stack] s t) ∧
    (s.sp = 0 → exec .ret s = .next { s with fault := some ⟨.stackUnderflow, s.pc, none⟩ })

/-- R27: a call pushes its own address, and, later, the return that finds the stack as the call left it takes that value
and adds 2: PC is the instruction after the call, and SP is what it was. -/
def Obligations.ReturnComesBackAfterTheCall : Prop :=
  ∀ (nnn : Addr12) (s t u : State), s.sp < s.params.stackDepth → s.stack.length = s.params.stackDepth →
    exec (.call nnn) s = .next t → u.sp = t.sp → u.stack = t.stack →
    t.stack[s.sp]? = some s.pc ∧
    ∃ w, exec .ret u = .next w ∧ w.pc = s.pc + 2 ∧ w.sp = s.sp ∧ Frame [] [.stack] u w

/-- The four skips on values: PC advances by 4 where the condition holds and by 2 elsewhere, nothing else changes, and the
low nibble of the register forms has no effect (42_skip.md). -/
def Obligations.SkipsOnValues : Prop :=
  ∀ (x y n : Nibble) (kk : Byte) (s : State),
    exec (.seImm x kk) s = .next { s with pc := if s.reg x = kk then s.pc + 4 else s.pc + 2 } ∧
    exec (.sneImm x kk) s = .next { s with pc := if s.reg x = kk then s.pc + 2 else s.pc + 4 } ∧
    exec (.seReg x y n) s = .next { s with pc := if s.reg x = s.reg y then s.pc + 4 else s.pc + 2 } ∧
    exec (.sneReg x y n) s = .next { s with pc := if s.reg x = s.reg y then s.pc + 2 else s.pc + 4 }

/-! ## Registers and the ALU -/

/-- R150: the word 6xkk is LD Vx, kk, under both values of STRICT_59, and it loads kk into Vx, VF only where x = 0xF. -/
def Obligations.LoadImmediate : Prop :=
  ∀ (x : Nibble) (kk : Byte) (s : State),
    (∀ strict, decode strict (0x6#4 ++ x) kk = .ok (.ldImm x kk)) ∧
    ∃ t, exec (.ldImm x kk) s = .next t ∧ t.reg x = kk ∧ t.pc = s.pc + 2 ∧ Frame [x] [] s t

/-- ADD Vx, kk wraps modulo 256 and writes no flag (43_alu.md section 2). -/
def Obligations.AddImmediateWrapsWithoutAFlag : Prop :=
  ∀ (x : Nibble) (kk : Byte) (s : State), ∃ t, exec (.addImm x kk) s = .next t ∧
    (t.reg x).toNat = ((s.reg x).toNat + kk.toNat) % 256 ∧ t.pc = s.pc + 2 ∧ Frame [x] [] s t

/-- The register copy and the bitwise operations, bit by bit; none writes a flag (43_alu.md sections 2 and 3). -/
def Obligations.CopyAndBitwiseWithoutAFlag : Prop :=
  ∀ (x y : Nibble) (s : State),
    (∃ t, exec (.ldReg x y) s = .next t ∧ t.reg x = s.reg y ∧ t.pc = s.pc + 2 ∧ Frame [x] [] s t) ∧
    (∃ t, exec (.orReg x y) s = .next t ∧
      (∀ k, (t.reg x).getLsbD k = ((s.reg x).getLsbD k || (s.reg y).getLsbD k)) ∧ t.pc = s.pc + 2 ∧
      Frame [x] [] s t) ∧
    (∃ t, exec (.andReg x y) s = .next t ∧
      (∀ k, (t.reg x).getLsbD k = ((s.reg x).getLsbD k && (s.reg y).getLsbD k)) ∧ t.pc = s.pc + 2 ∧
      Frame [x] [] s t) ∧
    (∃ t, exec (.xorReg x y) s = .next t ∧
      (∀ k, (t.reg x).getLsbD k = ((s.reg x).getLsbD k != (s.reg y).getLsbD k)) ∧ t.pc = s.pc + 2 ∧
      Frame [x] [] s t)

/-- ADD Vx, Vy: the sum modulo 256 in Vx and the carry in VF; where x = 0xF the flag stands (43_alu.md section 4; the
spec's D6, log 14). -/
def Obligations.AddRegisterWithCarry : Prop :=
  ∀ (x y : Nibble) (s : State), ∃ t, exec (.addReg x y) s = .next t ∧
    (x ≠ 0xF → (t.reg x).toNat = ((s.reg x).toNat + (s.reg y).toNat) % 256) ∧
    t.reg 0xF = (if (s.reg x).toNat + (s.reg y).toNat > 255 then 0x01 else 0x00) ∧
    t.pc = s.pc + 2 ∧ Frame [x, 0xF] [] s t

/-- SUB and SUBN: the difference modulo 256 in Vx, and VF = 1 exactly where the minuend is strictly greater (43_alu.md
section 4; C2; the spec's D6 for x = 0xF, log 14). -/
def Obligations.SubtractWithNoBorrow : Prop :=
  ∀ (x y : Nibble) (s : State),
    (∃ t, exec (.sub x y) s = .next t ∧
      (x ≠ 0xF → (t.reg x).toNat = ((s.reg x).toNat + 256 - (s.reg y).toNat) % 256) ∧
      t.reg 0xF = (if (s.reg x).toNat > (s.reg y).toNat then 0x01 else 0x00) ∧
      t.pc = s.pc + 2 ∧ Frame [x, 0xF] [] s t) ∧
    (∃ t, exec (.subn x y) s = .next t ∧
      (x ≠ 0xF → (t.reg x).toNat = ((s.reg y).toNat + 256 - (s.reg x).toNat) % 256) ∧
      t.reg 0xF = (if (s.reg y).toNat > (s.reg x).toNat then 0x01 else 0x00) ∧
      t.pc = s.pc + 2 ∧ Frame [x, 0xF] [] s t)

/-- SHR and SHL shift Vx, whatever Vy is, and VF is the bit shifted out (43_alu.md section 5; the spec's D6 for x = 0xF,
log 14). -/
def Obligations.ShiftsOfVx : Prop :=
  ∀ (x y : Nibble) (s : State),
    (∃ t, exec (.shr x y) s = .next t ∧ (x ≠ 0xF → (t.reg x).toNat = (s.reg x).toNat / 2) ∧
      (t.reg 0xF).toNat = (s.reg x).toNat % 2 ∧ t.pc = s.pc + 2 ∧ Frame [x, 0xF] [] s t) ∧
    (∃ t, exec (.shl x y) s = .next t ∧ (x ≠ 0xF → (t.reg x).toNat = 2 * (s.reg x).toNat % 256) ∧
      t.reg 0xF = (if 0x80 ≤ (s.reg x).toNat then 0x01 else 0x00) ∧ t.pc = s.pc + 2 ∧ Frame [x, 0xF] [] s t)

/-- Each flag-writing instruction writes VF with exactly 0x00 or 0x01, whatever VF held before (10_state.md section 2; that
this holds with x = 0xF too, where the flag is written after the result, is the spec's D6, log 14, DESIGN CHOICE); no
instruction reads VF except as an operand it names, so with another VF it does the same, and VF itself is then what the
instruction writes or, unwritten, what it was; ADD Vx, kk, OR, AND and XOR write VF only as the destination they name;
reset leaves 0x00. -/
def Obligations.FlagWritesOverwriteVf : Prop :=
  (∀ (i : Instr) (s t : State) (x y n : Nibble),
    i ∈ [Instr.addReg x y, .sub x y, .subn x y, .shr x y, .shl x y, .drw x y n] →
    s.fault = none → exec i s = .next t → t.fault = none → t.reg 0xF = 0x00 ∨ t.reg 0xF = 0x01) ∧
  (∀ (i : Instr) (s t : State) (b : Byte), 0xF ∉ regsRead i → exec i s = .next t →
    ∃ t', exec i (s.setReg 0xF b) = .next t' ∧ t' = { t with v := t'.v } ∧
      (∀ r, r ≠ 0xF → t'.reg r = t.reg r) ∧
      (t'.reg 0xF = t.reg 0xF ∨ t.reg 0xF = s.reg 0xF ∧ t'.reg 0xF = b)) ∧
  (∀ (i : Instr) (s t : State) (x y : Nibble) (kk : Byte),
    i ∈ [Instr.addImm x kk, .orReg x y, .andReg x y, .xorReg x y] → x ≠ 0xF → exec i s = .next t →
      t.reg 0xF = s.reg 0xF) ∧
  State.reset.reg 0xF = 0x00

/-- RND: one draw, whatever kk is, ANDed with kk; the byte is the next seeded answer, or the free value once there is
none (44_random.md; the spec's D23, log 7). -/
def Obligations.RandomByteUnderAMask : Prop :=
  ∀ (x : Nibble) (kk : Byte) (s : State), ∃ r t, exec (.rnd x kk) s = .next t ∧ t.reg x = r &&& kk ∧
    (∀ b rest, s.rngQueue = b :: rest → r = b ∧ t.rngQueue = rest) ∧
    (s.rngQueue = [] → r = Config.freeRandom s.rngDraws ∧ t.rngQueue = []) ∧
    t.rngDraws = s.rngDraws + 1 ∧ t.pc = s.pc + 2 ∧ Frame [x] [.random] s t

/-! ## Index register and memory transfers -/

/-- The three writers of I: nnn, I + Vx modulo 2^16 without a flag, and 5 times the low nibble of Vx (45_index_memory.md;
the wrap is the spec's D13, log 15). -/
def Obligations.WritersOfTheIndexRegister : Prop :=
  ∀ (nnn : Addr12) (x : Nibble) (s : State),
    (∃ t, exec (.ldI nnn) s = .next t ∧ t.i.toNat = nnn.toNat ∧ t.pc = s.pc + 2 ∧ Frame [] [.index] s t) ∧
    (∃ t, exec (.addIVx x) s = .next t ∧ t.i.toNat = (s.i.toNat + (s.reg x).toNat) % 0x10000 ∧ t.pc = s.pc + 2 ∧
      Frame [] [.index] s t) ∧
    (∃ t, exec (.ldFVx x) s = .next t ∧ t.i.toNat = 5 * ((s.reg x).toNat % 16) ∧ t.pc = s.pc + 2 ∧
      Frame [] [.index] s t)

/-- LD B, Vx: the hundreds, tens and ones digits at I, I + 1, I + 2, every other byte and I unchanged; where I + 2 is
outside memory, MemoryBoundsViolation with the first address that is, and nothing is written (45_index_memory.md; the
spec's D11). -/
def Obligations.BcdStoresThreeDigits : Prop :=
  ∀ (x : Nibble) (s : State),
    (Memory.wf s.params.font s.mem = true → s.i.toNat + 2 ≤ 0xFFF → ∃ t, exec (.ldBVx x) s = .next t ∧
      (t.readByte s.i.toNat).toNat = (s.reg x).toNat / 100 ∧
      (t.readByte (s.i.toNat + 1)).toNat = (s.reg x).toNat / 10 % 10 ∧
      (t.readByte (s.i.toNat + 2)).toNat = (s.reg x).toNat % 10 ∧
      (∀ a, (a < s.i.toNat ∨ s.i.toNat + 3 ≤ a) → t.readByte a = s.readByte a) ∧
      t.pc = s.pc + 2 ∧ Frame [] [.memory] s t) ∧
    (0xFFF < s.i.toNat + 2 → exec (.ldBVx x) s = .next { s with
      fault := some ⟨.memoryBoundsViolation, s.pc, some (if 0xFFF < s.i.toNat then s.i.toNat else 0x1000)⟩ })

/-- LD [I], Vx: V0..Vx at I, ..., I + x, every other byte and I unchanged; where I + x is outside memory,
MemoryBoundsViolation with the first address that is, and nothing is written (45_index_memory.md; the spec's D11, D14). -/
def Obligations.StoreOfARegisterRange : Prop :=
  ∀ (x : Nibble) (s : State),
    (Memory.wf s.params.font s.mem = true → s.i.toNat + x.toNat ≤ 0xFFF → ∃ t, exec (.ldMemVx x) s = .next t ∧
      (∀ r : Nibble, r.toNat ≤ x.toNat → t.readByte (s.i.toNat + r.toNat) = s.reg r) ∧
      (∀ a, (a < s.i.toNat ∨ s.i.toNat + x.toNat < a) → t.readByte a = s.readByte a) ∧
      t.pc = s.pc + 2 ∧ Frame [] [.memory] s t) ∧
    (0xFFF < s.i.toNat + x.toNat → exec (.ldMemVx x) s = .next { s with
      fault := some ⟨.memoryBoundsViolation, s.pc, some (if 0xFFF < s.i.toNat then s.i.toNat else 0x1000)⟩ })

/-- LD Vx, [I]: V0..Vx from I, ..., I + x, the other registers, I and all of memory unchanged; where I + x is outside
memory, MemoryBoundsViolation with the first address that is, and no register is written (45_index_memory.md; the spec's
D14). -/
def Obligations.LoadOfARegisterRange : Prop :=
  ∀ (x : Nibble) (s : State),
    (s.i.toNat + x.toNat ≤ 0xFFF → ∃ t, exec (.ldVxMem x) s = .next t ∧
      (∀ r : Nibble, r.toNat ≤ x.toNat → t.reg r = s.readByte (s.i.toNat + r.toNat)) ∧
      t.pc = s.pc + 2 ∧ Frame (regsWritten (.ldVxMem x)) [] s t ∧
      ∀ r : Nibble, x.toNat < r.toNat → t.reg r = s.reg r) ∧
    (0xFFF < s.i.toNat + x.toNat → exec (.ldVxMem x) s = .next { s with
      fault := some ⟨.memoryBoundsViolation, s.pc, some (if 0xFFF < s.i.toNat then s.i.toNat else 0x1000)⟩ })

/-- The round trip: a store of V0..Vx and, later, a load of the same range with I and the stored bytes as the store left
them gives V0..Vx what they were before the store (45_index_memory.md R191). -/
def Obligations.LoadRestoresWhatStoreSaved : Prop :=
  ∀ (x : Nibble) (s t u : State), Memory.wf s.params.font s.mem = true → s.i.toNat + x.toNat ≤ 0xFFF →
    exec (.ldMemVx x) s = .next t → u.i = t.i →
    (∀ k, k ≤ x.toNat → u.readByte (t.i.toNat + k) = t.readByte (t.i.toNat + k)) →
    ∃ w, exec (.ldVxMem x) u = .next w ∧ ∀ r : Nibble, r.toNat ≤ x.toNat → w.reg r = s.reg r

/-! ## Timers -/

/-- The timer transfers: verbatim, between DT or ST and Vx (46_timers.md). -/
def Obligations.TimerTransfers : Prop :=
  ∀ (x : Nibble) (s : State),
    (∃ t, exec (.ldVxDt x) s = .next t ∧ t.reg x = s.dt ∧ t.pc = s.pc + 2 ∧ Frame [x] [] s t) ∧
    (∃ t, exec (.ldDtVx x) s = .next t ∧ t.dt = s.reg x ∧ t.pc = s.pc + 2 ∧ Frame [] [.delay] s t) ∧
    (∃ t, exec (.ldStVx x) s = .next t ∧ t.st = s.reg x ∧ t.pc = s.pc + 2 ∧ Frame [] [.sound] s t)

/-- The timer advance is the while loop of 60_exceptions.md R266 run to its end, in exact rational arithmetic (the spec's
D19, log 27): with rounds enough, the loop from ACC + elapsed reaches the state the advance gives, and there ACC is below
one time-step. -/
def Obligations.TimersAdvanceAsTheLoopDoes : Prop :=
  ∀ (s : State) (e : Rat) (fuel : Nat), 0 ≤ s.acc + e → s.acc + e < (fuel + 1) / 60 →
    timerLoop fuel { s with acc := s.acc + e } = s.advanceTimers e ∧
      (s.advanceTimers e).acc < 1 / 60 ∧ 0 ≤ (s.advanceTimers e).acc

/-- Cadence: how the host cuts time into ticks does not matter (60_exceptions.md R267): two advances are one advance by
the sum. -/
def Obligations.TimersDependOnTotalTimeOnly : Prop :=
  ∀ (s : State) (e₁ e₂ : Rat), 0 ≤ s.acc → 0 ≤ e₁ → 0 ≤ e₂ →
    (s.advanceTimers e₁).advanceTimers e₂ = s.advanceTimers (e₁ + e₂)

/-- A tick whose instruction holds still advances the timers (R106), and with no key pressed it changes nothing else but
REDRAW and the host's inputs. -/
def Obligations.WaitingTickAdvancesTheTimers : Prop :=
  ∀ (s : State) (x : Nibble), s.fault = none → 0 ≤ s.acceptInput.elapsed → s.pc.toNat + 1 ≤ 0xFFF →
    decode s.params.strict59 (s.readByte s.pc.toNat) (s.readByte (s.pc.toNat + 1)) = .ok (.ldVxK x) →
    (∀ k, s.acceptInput.keyDown k = false) →
    step s = .next ({ s.acceptInput with redraw := false }.advanceTimers s.acceptInput.elapsed)

/-! ## Keys -/

/-- SKP and SKNP: a key number at most 0xF skips on that key's state, a greater one raises KeyIndexViolation, and nothing
else changes (47_keys.md; the fault is the spec's D16, log 18). -/
def Obligations.SkipsOnKeys : Prop :=
  ∀ (x : Nibble) (s : State),
    (∀ k : Nibble, (s.reg x).toNat = k.toNat →
      exec (.skp x) s = .next { s with pc := if s.keyDown k = true then s.pc + 4 else s.pc + 2 } ∧
      exec (.sknp x) s = .next { s with pc := if s.keyDown k = true then s.pc + 2 else s.pc + 4 }) ∧
    (0xF < (s.reg x).toNat →
      exec (.skp x) s = .next { s with fault := some ⟨.keyIndexViolation, s.pc, none⟩ } ∧
      exec (.sknp x) s = .next { s with fault := some ⟨.keyIndexViolation, s.pc, none⟩ })

/-- LD Vx, K: with a key pressed Vx is the least pressed key and PC advances; with none, nothing changes at all, PC
included (47_keys.md; the spec's D15, log 17). -/
def Obligations.KeyWait : Prop :=
  ∀ (x : Nibble) (s : State),
    (∀ k : Nibble, s.keyDown k = true → (∀ j : Nibble, j.toNat < k.toNat → s.keyDown j = false) →
      ∃ t, exec (.ldVxK x) s = .next t ∧ (t.reg x).toNat = k.toNat ∧ t.pc = s.pc + 2 ∧ Frame [x] [] s t) ∧
    ((∀ k, s.keyDown k = false) → exec (.ldVxK x) s = .next s)

/-! ## Display -/

/-- CLS: every cell 0 and REDRAW set, VF and everything else unchanged (48_display.md; the spec's D12 and C1, log 20). -/
def Obligations.ClearScreen : Prop :=
  ∀ (s : State), ∃ t, exec .cls s = .next t ∧ (∀ k, cellOf t.disp k = false) ∧ t.redraw = true ∧ t.pc = s.pc + 2 ∧
    Frame [] [.display, .redraw] s t

/-- DRW within memory (48_display.md; the spec's D7 to D10 and D30, logs 3, 14 and 19): each cell ends as its old value
XOR the parity of the sprite pixels that fall on it, VF is 1 exactly where some cell collides (two pixels or more on it,
or one on a set cell), REDRAW is set, and nothing else changes. n = 0 draws nothing. -/
def Obligations.DrawTogglesCellsAndReportsCollision : Prop :=
  ∀ (x y n : Nibble) (s : State), (n.toNat = 0 ∨ s.i.toNat + n.toNat ≤ 0x1000) →
    ∃ t, exec (.drw x y n) s = .next t ∧
      (∀ k, k < 2048 → cellOf t.disp k = (cellOf s.disp k != decide (togglesOf s x y n k % 2 = 1))) ∧
      (t.reg 0xF = 0x01 ↔ ∃ k, k < 2048 ∧
        (2 ≤ togglesOf s x y n k ∨ 1 ≤ togglesOf s x y n k ∧ cellOf s.disp k = true)) ∧
      (t.reg 0xF = 0x00 ∨ t.reg 0xF = 0x01) ∧ t.redraw = true ∧ t.pc = s.pc + 2 ∧
      Frame [0xF] [.display, .redraw] s t

/-- DRW whose rows reach outside memory raises MemoryBoundsViolation with the first address that does, and writes nothing,
not VF, not DISP, not REDRAW (48_display.md; the spec's D11). -/
def Obligations.DrawOutOfMemoryFaults : Prop :=
  ∀ (x y n : Nibble) (s : State), 0 < n.toNat → 0x1000 < s.i.toNat + n.toNat →
    exec (.drw x y n) s = .next { s with
      fault := some ⟨.memoryBoundsViolation, s.pc, some (if 0xFFF < s.i.toNat then s.i.toNat else 0x1000)⟩ }

/-- The order in which a sprite's toggles are applied does not matter, to the display or to the collision
(48_display.md R233). -/
def Obligations.DrawingOrderDoesNotMatter : Prop :=
  ∀ (d : Display) (cells cells' : List Nat), cells.Perm cells' → applyToggles d cells = applyToggles d cells'

/-- Placement (48_display.md R232; DRAW_EDGE is the spec's D8, log 3): every policy gives a cell of the grid, all agree
inside it, and outside it the axes are clamped, the index is clamped, or both axes wrap. -/
def Obligations.PlacementOfSpritePixels : Prop :=
  ∀ (x y : Nat),
    (∀ e, spriteCell e x y < 2048) ∧
    (x < 64 → y < 32 → ∀ e, spriteCell e x y = x + 64 * y) ∧
    (64 ≤ x → y < 32 → spriteCell .clampAxis x y = 63 + 64 * y) ∧
    (x < 64 → 32 ≤ y → spriteCell .clampAxis x y = x + 64 * 31) ∧
    (64 ≤ x → 32 ≤ y → spriteCell .clampAxis x y = 2047) ∧
    (2047 < x + 64 * y → spriteCell .clampLinear x y = 2047) ∧
    (x + 64 * y ≤ 2047 → spriteCell .clampLinear x y = x + 64 * y) ∧
    spriteCell .wrap x y = x % 64 + 64 * (y % 32)
end

