-- ==== Sys2Proof/Laws/Decode.lean ====
section
/-! SUPPORT. The words of the encoding and their fields, by number (30_encoding.md R71, R74; 20_memory.md R55), and the
class of a word by its family. -/

namespace Sys2Proof

open Sys2Proof

/-! ## Fields and words by number -/


theorem append_toNat {v w : Nat} (a : BitVec v) (b : BitVec w) : (a ++ b).toNat = 2 ^ w * a.toNat + b.toNat := by
  rw [BitVec.toNat_append, ← Nat.shiftLeft_add_eq_or_of_lt b.isLt, Nat.shiftLeft_eq, Nat.mul_comm]

theorem field_toNat (op : Word) (lo w : Nat) : (op.extractLsb' lo w).toNat = op.toNat / 2 ^ lo % 2 ^ w := by
  rw [BitVec.extractLsb'_toNat, Nat.shiftRight_eq_div_pow]

theorem fieldF_toNat (op : Word) : (fieldF op).toNat = op.toNat / 0x1000 := by
  have := op.isLt
  rw [fieldF, field_toNat]; omega

theorem fieldX_toNat (op : Word) : (fieldX op).toNat = op.toNat / 0x100 % 0x10 := field_toNat op 8 4

theorem fieldY_toNat (op : Word) : (fieldY op).toNat = op.toNat / 0x10 % 0x10 := field_toNat op 4 4

theorem fieldN_toNat (op : Word) : (fieldN op).toNat = op.toNat % 0x10 := by rw [fieldN, field_toNat]; omega

theorem fieldKK_toNat (op : Word) : (fieldKK op).toNat = op.toNat % 0x100 := by rw [fieldKK, field_toNat]; omega

theorem fieldNNN_toNat (op : Word) : (fieldNNN op).toNat = op.toNat % 0x1000 := by rw [fieldNNN, field_toNat]; omega

theorem hiByte_toNat (op : Word) : (hiByte op).toNat = op.toNat / 0x100 := by
  have := op.isLt
  rw [hiByte, field_toNat]; omega

theorem loByte_toNat (op : Word) : (loByte op).toNat = op.toNat % 0x100 := by rw [loByte, field_toNat]; omega

theorem opOf_toNat (hi lo : Byte) : (opOf hi lo).toNat = 0x100 * hi.toNat + lo.toNat := append_toNat hi lo

theorem wordNNN_toNat (f : Nibble) (nnn : Addr12) : (wordNNN f nnn).toNat = 0x1000 * f.toNat + nnn.toNat :=
  append_toNat f nnn

theorem wordXKK_toNat (f x : Nibble) (kk : Byte) :
    (wordXKK f x kk).toNat = 0x1000 * f.toNat + (0x100 * x.toNat + kk.toNat) :=
  (append_toNat f (x ++ kk)).trans (congrArg _ (append_toNat x kk))

theorem wordXYN_toNat (f x y n : Nibble) :
    (wordXYN f x y n).toNat = 0x1000 * f.toNat + (0x100 * x.toNat + (0x10 * y.toNat + n.toNat)) :=
  (append_toNat f (x ++ (y ++ n))).trans (congrArg _ ((append_toNat x (y ++ n)).trans (congrArg _ (append_toNat y n))))

/-! ## A word and its fields -/

theorem opOf_bytes (op : Word) : opOf (hiByte op) (loByte op) = op := by
  apply BitVec.eq_of_toNat_eq; rw [opOf_toNat, hiByte_toNat, loByte_toNat]; omega

theorem hiByte_opOf (hi lo : Byte) : hiByte (opOf hi lo) = hi := by
  have := lo.isLt
  apply BitVec.eq_of_toNat_eq; rw [hiByte_toNat, opOf_toNat]; omega

theorem loByte_opOf (hi lo : Byte) : loByte (opOf hi lo) = lo := by
  have := lo.isLt
  apply BitVec.eq_of_toNat_eq; rw [loByte_toNat, opOf_toNat]; omega

theorem wordNNN_fields (op : Word) : wordNNN (fieldF op) (fieldNNN op) = op := by
  apply BitVec.eq_of_toNat_eq; rw [wordNNN_toNat, fieldF_toNat, fieldNNN_toNat]; omega

theorem wordXKK_fields (op : Word) : wordXKK (fieldF op) (fieldX op) (fieldKK op) = op := by
  apply BitVec.eq_of_toNat_eq; rw [wordXKK_toNat, fieldF_toNat, fieldX_toNat, fieldKK_toNat]; omega

theorem wordXYN_fields (op : Word) : wordXYN (fieldF op) (fieldX op) (fieldY op) (fieldN op) = op := by
  apply BitVec.eq_of_toNat_eq; rw [wordXYN_toNat, fieldF_toNat, fieldX_toNat, fieldY_toNat, fieldN_toNat]; omega

theorem fields_wordNNN (f : Nibble) (nnn : Addr12) :
    fieldF (wordNNN f nnn) = f ∧ fieldNNN (wordNNN f nnn) = nnn := by
  have := nnn.isLt
  constructor <;> apply BitVec.eq_of_toNat_eq <;>
    simp only [fieldF_toNat, fieldNNN_toNat, wordNNN_toNat] <;> omega

theorem fields_wordXKK (f x : Nibble) (kk : Byte) :
    fieldF (wordXKK f x kk) = f ∧ fieldX (wordXKK f x kk) = x ∧ fieldKK (wordXKK f x kk) = kk := by
  have := x.isLt; have := kk.isLt
  refine ⟨?_, ?_, ?_⟩ <;> apply BitVec.eq_of_toNat_eq <;>
    simp only [fieldF_toNat, fieldX_toNat, fieldKK_toNat, wordXKK_toNat] <;> omega

theorem fields_wordXYN (f x y n : Nibble) :
    fieldF (wordXYN f x y n) = f ∧ fieldX (wordXYN f x y n) = x ∧ fieldY (wordXYN f x y n) = y ∧
      fieldN (wordXYN f x y n) = n := by
  have := x.isLt; have := y.isLt; have := n.isLt
  refine ⟨?_, ?_, ?_, ?_⟩ <;> apply BitVec.eq_of_toNat_eq <;>
    simp only [fieldF_toNat, fieldX_toNat, fieldY_toNat, fieldN_toNat, wordXYN_toNat] <;> omega

/-! ## The class of a word -/

/-- What the class of a word says of its fields (the rows of R78, and R79 for INVALID). -/
def Class.Pattern (strict59 : Bool) (op : Word) : Class → Prop
  | .SYS => fieldF op = 0x0 ∧ op ≠ 0x00E0 ∧ op ≠ 0x00EE
  | .CLS => op = 0x00E0
  | .RET => op = 0x00EE
  | .JP => fieldF op = 0x1
  | .CALL => fieldF op = 0x2
  | .SE_IMM => fieldF op = 0x3
  | .SNE_IMM => fieldF op = 0x4
  | .SE_REG => fieldF op = 0x5 ∧ (fieldN op = 0 ∨ strict59 = false)
  | .LD_IMM => fieldF op = 0x6
  | .ADD_IMM => fieldF op = 0x7
  | .LD_REG => fieldF op = 0x8 ∧ fieldN op = 0x0
  | .OR => fieldF op = 0x8 ∧ fieldN op = 0x1
  | .AND => fieldF op = 0x8 ∧ fieldN op = 0x2
  | .XOR => fieldF op = 0x8 ∧ fieldN op = 0x3
  | .ADD_REG => fieldF op = 0x8 ∧ fieldN op = 0x4
  | .SUB => fieldF op = 0x8 ∧ fieldN op = 0x5
  | .SHR => fieldF op = 0x8 ∧ fieldN op = 0x6
  | .SUBN => fieldF op = 0x8 ∧ fieldN op = 0x7
  | .SHL => fieldF op = 0x8 ∧ fieldN op = 0xE
  | .SNE_REG => fieldF op = 0x9 ∧ (fieldN op = 0 ∨ strict59 = false)
  | .LD_I => fieldF op = 0xA
  | .JP_V0 => fieldF op = 0xB
  | .RND => fieldF op = 0xC
  | .DRW => fieldF op = 0xD
  | .SKP => fieldF op = 0xE ∧ fieldKK op = 0x9E
  | .SKNP => fieldF op = 0xE ∧ fieldKK op = 0xA1
  | .LD_VX_DT => fieldF op = 0xF ∧ fieldKK op = 0x07
  | .LD_VX_K => fieldF op = 0xF ∧ fieldKK op = 0x0A
  | .LD_DT_VX => fieldF op = 0xF ∧ fieldKK op = 0x15
  | .LD_ST_VX => fieldF op = 0xF ∧ fieldKK op = 0x18
  | .ADD_I_VX => fieldF op = 0xF ∧ fieldKK op = 0x1E
  | .LD_F_VX => fieldF op = 0xF ∧ fieldKK op = 0x29
  | .LD_B_VX => fieldF op = 0xF ∧ fieldKK op = 0x33
  | .LD_MEM_VX => fieldF op = 0xF ∧ fieldKK op = 0x55
  | .LD_VX_MEM => fieldF op = 0xF ∧ fieldKK op = 0x65
  | .INVALID =>
    fieldF op = 0x8 ∨ fieldF op = 0xE ∨ fieldF op = 0xF ∨
      (fieldF op = 0x5 ∨ fieldF op = 0x9) ∧ ¬(fieldN op = 0 ∨ strict59 = false)

/-- The wildcard arm of `classOf` is family F. -/
theorem nibble_eq_F : ∀ f : Nibble, f ≠ 0x0 → f ≠ 0x1 → f ≠ 0x2 → f ≠ 0x3 → f ≠ 0x4 → f ≠ 0x5 → f ≠ 0x6 → f ≠ 0x7 →
    f ≠ 0x8 → f ≠ 0x9 → f ≠ 0xA → f ≠ 0xB → f ≠ 0xC → f ≠ 0xD → f ≠ 0xE → f = 0xF := by
  bv_omega

theorem classFamily8_pattern (strict59 : Bool) (op : Word) (h : fieldF op = 0x8) :
    (classFamily8 (fieldN op)).Pattern strict59 op := by
  unfold classFamily8; split <;> simp_all [Class.Pattern]

theorem classFamilyF_pattern (strict59 : Bool) (op : Word) (h : fieldF op = 0xF) :
    (classFamilyF (fieldKK op)).Pattern strict59 op := by
  unfold classFamilyF; split_ifs <;> simp_all [Class.Pattern]

theorem classOf_pattern (strict59 : Bool) (op : Word) : (classOf strict59 op).Pattern strict59 op := by
  unfold classOf
  split
  case h_1 h => unfold classFamily0; split_ifs <;> simp_all [Class.Pattern]
  case h_6 h => unfold classFamily59; split_ifs with h'; exacts [⟨h, h'⟩, .inr (.inr (.inr ⟨.inl h, h'⟩))]
  case h_9 h => exact classFamily8_pattern strict59 op h
  case h_10 h => unfold classFamily59; split_ifs with h'; exacts [⟨h, h'⟩, .inr (.inr (.inr ⟨.inr h, h'⟩))]
  case h_15 h => unfold classFamilyE; split_ifs with h' h'' <;> simp [Class.Pattern, h, h'] ; assumption
  case h_16 h0 h1 h2 h3 h4 h5 h6 h7 h8 h9 hA hB hC hD hE =>
    exact classFamilyF_pattern strict59 op (nibble_eq_F _ h0 h1 h2 h3 h4 h5 h6 h7 h8 h9 hA hB hC hD hE)
  all_goals assumption

end Sys2Proof
end

