-- ==== Sys2Proof/Laws/State.lean ====
section
/-! SUPPORT. Every field of the state after every named update (true by rfl), so that no proof unfolds a record update;
and the registers and bytes a state reads after them. -/

namespace Sys2Proof.Machine

open Sys2Proof

/-! ## setPc -/

@[simp] theorem State.setPc_v (s : State) (p : Word) : (s.setPc p).v = s.v := rfl
@[simp] theorem State.setPc_pc (s : State) (p : Word) : (s.setPc p).pc = p := rfl
@[simp] theorem State.setPc_i (s : State) (p : Word) : (s.setPc p).i = s.i := rfl
@[simp] theorem State.setPc_sp (s : State) (p : Word) : (s.setPc p).sp = s.sp := rfl
@[simp] theorem State.setPc_stack (s : State) (p : Word) : (s.setPc p).stack = s.stack := rfl
@[simp] theorem State.setPc_dt (s : State) (p : Word) : (s.setPc p).dt = s.dt := rfl
@[simp] theorem State.setPc_st (s : State) (p : Word) : (s.setPc p).st = s.st := rfl
@[simp] theorem State.setPc_acc (s : State) (p : Word) : (s.setPc p).acc = s.acc := rfl
@[simp] theorem State.setPc_disp (s : State) (p : Word) : (s.setPc p).disp = s.disp := rfl
@[simp] theorem State.setPc_redraw (s : State) (p : Word) : (s.setPc p).redraw = s.redraw := rfl
@[simp] theorem State.setPc_keys (s : State) (p : Word) : (s.setPc p).keys = s.keys := rfl
@[simp] theorem State.setPc_fault (s : State) (p : Word) : (s.setPc p).fault = s.fault := rfl
@[simp] theorem State.setPc_mem (s : State) (p : Word) : (s.setPc p).mem = s.mem := rfl
@[simp] theorem State.setPc_params (s : State) (p : Word) : (s.setPc p).params = s.params := rfl
@[simp] theorem State.setPc_elapsed (s : State) (p : Word) : (s.setPc p).elapsed = s.elapsed := rfl
@[simp] theorem State.setPc_pending (s : State) (p : Word) : (s.setPc p).pending = s.pending := rfl
@[simp] theorem State.setPc_rngQueue (s : State) (p : Word) : (s.setPc p).rngQueue = s.rngQueue := rfl
@[simp] theorem State.setPc_rngDraws (s : State) (p : Word) : (s.setPc p).rngDraws = s.rngDraws := rfl

/-! ## setI -/

@[simp] theorem State.setI_v (s : State) (w : Word) : (s.setI w).v = s.v := rfl
@[simp] theorem State.setI_pc (s : State) (w : Word) : (s.setI w).pc = s.pc := rfl
@[simp] theorem State.setI_i (s : State) (w : Word) : (s.setI w).i = w := rfl
@[simp] theorem State.setI_sp (s : State) (w : Word) : (s.setI w).sp = s.sp := rfl
@[simp] theorem State.setI_stack (s : State) (w : Word) : (s.setI w).stack = s.stack := rfl
@[simp] theorem State.setI_dt (s : State) (w : Word) : (s.setI w).dt = s.dt := rfl
@[simp] theorem State.setI_st (s : State) (w : Word) : (s.setI w).st = s.st := rfl
@[simp] theorem State.setI_acc (s : State) (w : Word) : (s.setI w).acc = s.acc := rfl
@[simp] theorem State.setI_disp (s : State) (w : Word) : (s.setI w).disp = s.disp := rfl
@[simp] theorem State.setI_redraw (s : State) (w : Word) : (s.setI w).redraw = s.redraw := rfl
@[simp] theorem State.setI_keys (s : State) (w : Word) : (s.setI w).keys = s.keys := rfl
@[simp] theorem State.setI_fault (s : State) (w : Word) : (s.setI w).fault = s.fault := rfl
@[simp] theorem State.setI_mem (s : State) (w : Word) : (s.setI w).mem = s.mem := rfl
@[simp] theorem State.setI_params (s : State) (w : Word) : (s.setI w).params = s.params := rfl
@[simp] theorem State.setI_elapsed (s : State) (w : Word) : (s.setI w).elapsed = s.elapsed := rfl
@[simp] theorem State.setI_pending (s : State) (w : Word) : (s.setI w).pending = s.pending := rfl
@[simp] theorem State.setI_rngQueue (s : State) (w : Word) : (s.setI w).rngQueue = s.rngQueue := rfl
@[simp] theorem State.setI_rngDraws (s : State) (w : Word) : (s.setI w).rngDraws = s.rngDraws := rfl

/-! ## setDt -/

@[simp] theorem State.setDt_v (s : State) (b : Byte) : (s.setDt b).v = s.v := rfl
@[simp] theorem State.setDt_pc (s : State) (b : Byte) : (s.setDt b).pc = s.pc := rfl
@[simp] theorem State.setDt_i (s : State) (b : Byte) : (s.setDt b).i = s.i := rfl
@[simp] theorem State.setDt_sp (s : State) (b : Byte) : (s.setDt b).sp = s.sp := rfl
@[simp] theorem State.setDt_stack (s : State) (b : Byte) : (s.setDt b).stack = s.stack := rfl
@[simp] theorem State.setDt_dt (s : State) (b : Byte) : (s.setDt b).dt = b := rfl
@[simp] theorem State.setDt_st (s : State) (b : Byte) : (s.setDt b).st = s.st := rfl
@[simp] theorem State.setDt_acc (s : State) (b : Byte) : (s.setDt b).acc = s.acc := rfl
@[simp] theorem State.setDt_disp (s : State) (b : Byte) : (s.setDt b).disp = s.disp := rfl
@[simp] theorem State.setDt_redraw (s : State) (b : Byte) : (s.setDt b).redraw = s.redraw := rfl
@[simp] theorem State.setDt_keys (s : State) (b : Byte) : (s.setDt b).keys = s.keys := rfl
@[simp] theorem State.setDt_fault (s : State) (b : Byte) : (s.setDt b).fault = s.fault := rfl
@[simp] theorem State.setDt_mem (s : State) (b : Byte) : (s.setDt b).mem = s.mem := rfl
@[simp] theorem State.setDt_params (s : State) (b : Byte) : (s.setDt b).params = s.params := rfl
@[simp] theorem State.setDt_elapsed (s : State) (b : Byte) : (s.setDt b).elapsed = s.elapsed := rfl
@[simp] theorem State.setDt_pending (s : State) (b : Byte) : (s.setDt b).pending = s.pending := rfl
@[simp] theorem State.setDt_rngQueue (s : State) (b : Byte) : (s.setDt b).rngQueue = s.rngQueue := rfl
@[simp] theorem State.setDt_rngDraws (s : State) (b : Byte) : (s.setDt b).rngDraws = s.rngDraws := rfl

/-! ## setSt -/

@[simp] theorem State.setSt_v (s : State) (b : Byte) : (s.setSt b).v = s.v := rfl
@[simp] theorem State.setSt_pc (s : State) (b : Byte) : (s.setSt b).pc = s.pc := rfl
@[simp] theorem State.setSt_i (s : State) (b : Byte) : (s.setSt b).i = s.i := rfl
@[simp] theorem State.setSt_sp (s : State) (b : Byte) : (s.setSt b).sp = s.sp := rfl
@[simp] theorem State.setSt_stack (s : State) (b : Byte) : (s.setSt b).stack = s.stack := rfl
@[simp] theorem State.setSt_dt (s : State) (b : Byte) : (s.setSt b).dt = s.dt := rfl
@[simp] theorem State.setSt_st (s : State) (b : Byte) : (s.setSt b).st = b := rfl
@[simp] theorem State.setSt_acc (s : State) (b : Byte) : (s.setSt b).acc = s.acc := rfl
@[simp] theorem State.setSt_disp (s : State) (b : Byte) : (s.setSt b).disp = s.disp := rfl
@[simp] theorem State.setSt_redraw (s : State) (b : Byte) : (s.setSt b).redraw = s.redraw := rfl
@[simp] theorem State.setSt_keys (s : State) (b : Byte) : (s.setSt b).keys = s.keys := rfl
@[simp] theorem State.setSt_fault (s : State) (b : Byte) : (s.setSt b).fault = s.fault := rfl
@[simp] theorem State.setSt_mem (s : State) (b : Byte) : (s.setSt b).mem = s.mem := rfl
@[simp] theorem State.setSt_params (s : State) (b : Byte) : (s.setSt b).params = s.params := rfl
@[simp] theorem State.setSt_elapsed (s : State) (b : Byte) : (s.setSt b).elapsed = s.elapsed := rfl
@[simp] theorem State.setSt_pending (s : State) (b : Byte) : (s.setSt b).pending = s.pending := rfl
@[simp] theorem State.setSt_rngQueue (s : State) (b : Byte) : (s.setSt b).rngQueue = s.rngQueue := rfl
@[simp] theorem State.setSt_rngDraws (s : State) (b : Byte) : (s.setSt b).rngDraws = s.rngDraws := rfl

/-! ## setFault -/

@[simp] theorem State.setFault_v (s : State) (r : FaultRecord) : (s.setFault r).v = s.v := rfl
@[simp] theorem State.setFault_pc (s : State) (r : FaultRecord) : (s.setFault r).pc = s.pc := rfl
@[simp] theorem State.setFault_i (s : State) (r : FaultRecord) : (s.setFault r).i = s.i := rfl
@[simp] theorem State.setFault_sp (s : State) (r : FaultRecord) : (s.setFault r).sp = s.sp := rfl
@[simp] theorem State.setFault_stack (s : State) (r : FaultRecord) : (s.setFault r).stack = s.stack := rfl
@[simp] theorem State.setFault_dt (s : State) (r : FaultRecord) : (s.setFault r).dt = s.dt := rfl
@[simp] theorem State.setFault_st (s : State) (r : FaultRecord) : (s.setFault r).st = s.st := rfl
@[simp] theorem State.setFault_acc (s : State) (r : FaultRecord) : (s.setFault r).acc = s.acc := rfl
@[simp] theorem State.setFault_disp (s : State) (r : FaultRecord) : (s.setFault r).disp = s.disp := rfl
@[simp] theorem State.setFault_redraw (s : State) (r : FaultRecord) : (s.setFault r).redraw = s.redraw := rfl
@[simp] theorem State.setFault_keys (s : State) (r : FaultRecord) : (s.setFault r).keys = s.keys := rfl
@[simp] theorem State.setFault_fault (s : State) (r : FaultRecord) : (s.setFault r).fault = some r := rfl
@[simp] theorem State.setFault_mem (s : State) (r : FaultRecord) : (s.setFault r).mem = s.mem := rfl
@[simp] theorem State.setFault_params (s : State) (r : FaultRecord) : (s.setFault r).params = s.params := rfl
@[simp] theorem State.setFault_elapsed (s : State) (r : FaultRecord) : (s.setFault r).elapsed = s.elapsed := rfl
@[simp] theorem State.setFault_pending (s : State) (r : FaultRecord) : (s.setFault r).pending = s.pending := rfl
@[simp] theorem State.setFault_rngQueue (s : State) (r : FaultRecord) : (s.setFault r).rngQueue = s.rngQueue := rfl
@[simp] theorem State.setFault_rngDraws (s : State) (r : FaultRecord) : (s.setFault r).rngDraws = s.rngDraws := rfl

/-! ## setDisp -/

@[simp] theorem State.setDisp_v (s : State) (d : Display) : (s.setDisp d).v = s.v := rfl
@[simp] theorem State.setDisp_pc (s : State) (d : Display) : (s.setDisp d).pc = s.pc := rfl
@[simp] theorem State.setDisp_i (s : State) (d : Display) : (s.setDisp d).i = s.i := rfl
@[simp] theorem State.setDisp_sp (s : State) (d : Display) : (s.setDisp d).sp = s.sp := rfl
@[simp] theorem State.setDisp_stack (s : State) (d : Display) : (s.setDisp d).stack = s.stack := rfl
@[simp] theorem State.setDisp_dt (s : State) (d : Display) : (s.setDisp d).dt = s.dt := rfl
@[simp] theorem State.setDisp_st (s : State) (d : Display) : (s.setDisp d).st = s.st := rfl
@[simp] theorem State.setDisp_acc (s : State) (d : Display) : (s.setDisp d).acc = s.acc := rfl
@[simp] theorem State.setDisp_disp (s : State) (d : Display) : (s.setDisp d).disp = d := rfl
@[simp] theorem State.setDisp_redraw (s : State) (d : Display) : (s.setDisp d).redraw = true := rfl
@[simp] theorem State.setDisp_keys (s : State) (d : Display) : (s.setDisp d).keys = s.keys := rfl
@[simp] theorem State.setDisp_fault (s : State) (d : Display) : (s.setDisp d).fault = s.fault := rfl
@[simp] theorem State.setDisp_mem (s : State) (d : Display) : (s.setDisp d).mem = s.mem := rfl
@[simp] theorem State.setDisp_params (s : State) (d : Display) : (s.setDisp d).params = s.params := rfl
@[simp] theorem State.setDisp_elapsed (s : State) (d : Display) : (s.setDisp d).elapsed = s.elapsed := rfl
@[simp] theorem State.setDisp_pending (s : State) (d : Display) : (s.setDisp d).pending = s.pending := rfl
@[simp] theorem State.setDisp_rngQueue (s : State) (d : Display) : (s.setDisp d).rngQueue = s.rngQueue := rfl
@[simp] theorem State.setDisp_rngDraws (s : State) (d : Display) : (s.setDisp d).rngDraws = s.rngDraws := rfl

/-! ## setReg -/

@[simp] theorem State.setReg_pc (s : State) (r : Nibble) (b : Byte) : (s.setReg r b).pc = s.pc := rfl
@[simp] theorem State.setReg_i (s : State) (r : Nibble) (b : Byte) : (s.setReg r b).i = s.i := rfl
@[simp] theorem State.setReg_sp (s : State) (r : Nibble) (b : Byte) : (s.setReg r b).sp = s.sp := rfl
@[simp] theorem State.setReg_stack (s : State) (r : Nibble) (b : Byte) : (s.setReg r b).stack = s.stack := rfl
@[simp] theorem State.setReg_dt (s : State) (r : Nibble) (b : Byte) : (s.setReg r b).dt = s.dt := rfl
@[simp] theorem State.setReg_st (s : State) (r : Nibble) (b : Byte) : (s.setReg r b).st = s.st := rfl
@[simp] theorem State.setReg_acc (s : State) (r : Nibble) (b : Byte) : (s.setReg r b).acc = s.acc := rfl
@[simp] theorem State.setReg_disp (s : State) (r : Nibble) (b : Byte) : (s.setReg r b).disp = s.disp := rfl
@[simp] theorem State.setReg_redraw (s : State) (r : Nibble) (b : Byte) : (s.setReg r b).redraw = s.redraw := rfl
@[simp] theorem State.setReg_keys (s : State) (r : Nibble) (b : Byte) : (s.setReg r b).keys = s.keys := rfl
@[simp] theorem State.setReg_fault (s : State) (r : Nibble) (b : Byte) : (s.setReg r b).fault = s.fault := rfl
@[simp] theorem State.setReg_mem (s : State) (r : Nibble) (b : Byte) : (s.setReg r b).mem = s.mem := rfl
@[simp] theorem State.setReg_params (s : State) (r : Nibble) (b : Byte) : (s.setReg r b).params = s.params := rfl
@[simp] theorem State.setReg_elapsed (s : State) (r : Nibble) (b : Byte) : (s.setReg r b).elapsed = s.elapsed := rfl
@[simp] theorem State.setReg_pending (s : State) (r : Nibble) (b : Byte) : (s.setReg r b).pending = s.pending := rfl
@[simp] theorem State.setReg_rngQueue (s : State) (r : Nibble) (b : Byte) : (s.setReg r b).rngQueue = s.rngQueue := rfl
@[simp] theorem State.setReg_rngDraws (s : State) (r : Nibble) (b : Byte) : (s.setReg r b).rngDraws = s.rngDraws := rfl

/-! ## writeBytes -/

@[simp] theorem State.writeBytes_v (s : State) (a : Nat) (bs : List Byte) : (s.writeBytes a bs).v = s.v := rfl
@[simp] theorem State.writeBytes_pc (s : State) (a : Nat) (bs : List Byte) : (s.writeBytes a bs).pc = s.pc := rfl
@[simp] theorem State.writeBytes_i (s : State) (a : Nat) (bs : List Byte) : (s.writeBytes a bs).i = s.i := rfl
@[simp] theorem State.writeBytes_sp (s : State) (a : Nat) (bs : List Byte) : (s.writeBytes a bs).sp = s.sp := rfl
@[simp] theorem State.writeBytes_stack (s : State) (a : Nat) (bs : List Byte) : (s.writeBytes a bs).stack = s.stack := rfl
@[simp] theorem State.writeBytes_dt (s : State) (a : Nat) (bs : List Byte) : (s.writeBytes a bs).dt = s.dt := rfl
@[simp] theorem State.writeBytes_st (s : State) (a : Nat) (bs : List Byte) : (s.writeBytes a bs).st = s.st := rfl
@[simp] theorem State.writeBytes_acc (s : State) (a : Nat) (bs : List Byte) : (s.writeBytes a bs).acc = s.acc := rfl
@[simp] theorem State.writeBytes_disp (s : State) (a : Nat) (bs : List Byte) : (s.writeBytes a bs).disp = s.disp := rfl
@[simp] theorem State.writeBytes_redraw (s : State) (a : Nat) (bs : List Byte) : (s.writeBytes a bs).redraw = s.redraw := rfl
@[simp] theorem State.writeBytes_keys (s : State) (a : Nat) (bs : List Byte) : (s.writeBytes a bs).keys = s.keys := rfl
@[simp] theorem State.writeBytes_fault (s : State) (a : Nat) (bs : List Byte) : (s.writeBytes a bs).fault = s.fault := rfl
@[simp] theorem State.writeBytes_mem (s : State) (a : Nat) (bs : List Byte) : (s.writeBytes a bs).mem = memWriteList s.params.font s.mem a bs := rfl
@[simp] theorem State.writeBytes_params (s : State) (a : Nat) (bs : List Byte) : (s.writeBytes a bs).params = s.params := rfl
@[simp] theorem State.writeBytes_elapsed (s : State) (a : Nat) (bs : List Byte) : (s.writeBytes a bs).elapsed = s.elapsed := rfl
@[simp] theorem State.writeBytes_pending (s : State) (a : Nat) (bs : List Byte) : (s.writeBytes a bs).pending = s.pending := rfl
@[simp] theorem State.writeBytes_rngQueue (s : State) (a : Nat) (bs : List Byte) : (s.writeBytes a bs).rngQueue = s.rngQueue := rfl
@[simp] theorem State.writeBytes_rngDraws (s : State) (a : Nat) (bs : List Byte) : (s.writeBytes a bs).rngDraws = s.rngDraws := rfl

/-! ## push -/

@[simp] theorem State.push_v (s : State) (w : Word) : (s.push w).v = s.v := rfl
@[simp] theorem State.push_pc (s : State) (w : Word) : (s.push w).pc = s.pc := rfl
@[simp] theorem State.push_i (s : State) (w : Word) : (s.push w).i = s.i := rfl
@[simp] theorem State.push_sp (s : State) (w : Word) : (s.push w).sp = s.sp + 1 := rfl
@[simp] theorem State.push_stack (s : State) (w : Word) : (s.push w).stack = s.stack.set s.sp w := rfl
@[simp] theorem State.push_dt (s : State) (w : Word) : (s.push w).dt = s.dt := rfl
@[simp] theorem State.push_st (s : State) (w : Word) : (s.push w).st = s.st := rfl
@[simp] theorem State.push_acc (s : State) (w : Word) : (s.push w).acc = s.acc := rfl
@[simp] theorem State.push_disp (s : State) (w : Word) : (s.push w).disp = s.disp := rfl
@[simp] theorem State.push_redraw (s : State) (w : Word) : (s.push w).redraw = s.redraw := rfl
@[simp] theorem State.push_keys (s : State) (w : Word) : (s.push w).keys = s.keys := rfl
@[simp] theorem State.push_fault (s : State) (w : Word) : (s.push w).fault = s.fault := rfl
@[simp] theorem State.push_mem (s : State) (w : Word) : (s.push w).mem = s.mem := rfl
@[simp] theorem State.push_params (s : State) (w : Word) : (s.push w).params = s.params := rfl
@[simp] theorem State.push_elapsed (s : State) (w : Word) : (s.push w).elapsed = s.elapsed := rfl
@[simp] theorem State.push_pending (s : State) (w : Word) : (s.push w).pending = s.pending := rfl
@[simp] theorem State.push_rngQueue (s : State) (w : Word) : (s.push w).rngQueue = s.rngQueue := rfl
@[simp] theorem State.push_rngDraws (s : State) (w : Word) : (s.push w).rngDraws = s.rngDraws := rfl

/-! ## pop -/

@[simp] theorem State.pop_v (s : State) : s.pop.v = s.v := rfl
@[simp] theorem State.pop_pc (s : State) : s.pop.pc = s.pc := rfl
@[simp] theorem State.pop_i (s : State) : s.pop.i = s.i := rfl
@[simp] theorem State.pop_sp (s : State) : s.pop.sp = s.sp - 1 := rfl
@[simp] theorem State.pop_stack (s : State) : s.pop.stack = s.stack := rfl
@[simp] theorem State.pop_dt (s : State) : s.pop.dt = s.dt := rfl
@[simp] theorem State.pop_st (s : State) : s.pop.st = s.st := rfl
@[simp] theorem State.pop_acc (s : State) : s.pop.acc = s.acc := rfl
@[simp] theorem State.pop_disp (s : State) : s.pop.disp = s.disp := rfl
@[simp] theorem State.pop_redraw (s : State) : s.pop.redraw = s.redraw := rfl
@[simp] theorem State.pop_keys (s : State) : s.pop.keys = s.keys := rfl
@[simp] theorem State.pop_fault (s : State) : s.pop.fault = s.fault := rfl
@[simp] theorem State.pop_mem (s : State) : s.pop.mem = s.mem := rfl
@[simp] theorem State.pop_params (s : State) : s.pop.params = s.params := rfl
@[simp] theorem State.pop_elapsed (s : State) : s.pop.elapsed = s.elapsed := rfl
@[simp] theorem State.pop_pending (s : State) : s.pop.pending = s.pending := rfl
@[simp] theorem State.pop_rngQueue (s : State) : s.pop.rngQueue = s.rngQueue := rfl
@[simp] theorem State.pop_rngDraws (s : State) : s.pop.rngDraws = s.rngDraws := rfl

/-! ## afterDraw -/

@[simp] theorem State.afterDraw_v (s : State) : s.afterDraw.v = s.v := rfl
@[simp] theorem State.afterDraw_pc (s : State) : s.afterDraw.pc = s.pc := rfl
@[simp] theorem State.afterDraw_i (s : State) : s.afterDraw.i = s.i := rfl
@[simp] theorem State.afterDraw_sp (s : State) : s.afterDraw.sp = s.sp := rfl
@[simp] theorem State.afterDraw_stack (s : State) : s.afterDraw.stack = s.stack := rfl
@[simp] theorem State.afterDraw_dt (s : State) : s.afterDraw.dt = s.dt := rfl
@[simp] theorem State.afterDraw_st (s : State) : s.afterDraw.st = s.st := rfl
@[simp] theorem State.afterDraw_acc (s : State) : s.afterDraw.acc = s.acc := rfl
@[simp] theorem State.afterDraw_disp (s : State) : s.afterDraw.disp = s.disp := rfl
@[simp] theorem State.afterDraw_redraw (s : State) : s.afterDraw.redraw = s.redraw := rfl
@[simp] theorem State.afterDraw_keys (s : State) : s.afterDraw.keys = s.keys := rfl
@[simp] theorem State.afterDraw_fault (s : State) : s.afterDraw.fault = s.fault := rfl
@[simp] theorem State.afterDraw_mem (s : State) : s.afterDraw.mem = s.mem := rfl
@[simp] theorem State.afterDraw_params (s : State) : s.afterDraw.params = s.params := rfl
@[simp] theorem State.afterDraw_elapsed (s : State) : s.afterDraw.elapsed = s.elapsed := rfl
@[simp] theorem State.afterDraw_pending (s : State) : s.afterDraw.pending = s.pending := rfl
@[simp] theorem State.afterDraw_rngQueue (s : State) : s.afterDraw.rngQueue = s.rngQueue.tail := rfl
@[simp] theorem State.afterDraw_rngDraws (s : State) : s.afterDraw.rngDraws = s.rngDraws + 1 := rfl

/-! ## advanceTimers -/

@[simp] theorem State.advanceTimers_v (s : State) (e : Rat) : (s.advanceTimers e).v = s.v := rfl
@[simp] theorem State.advanceTimers_pc (s : State) (e : Rat) : (s.advanceTimers e).pc = s.pc := rfl
@[simp] theorem State.advanceTimers_i (s : State) (e : Rat) : (s.advanceTimers e).i = s.i := rfl
@[simp] theorem State.advanceTimers_sp (s : State) (e : Rat) : (s.advanceTimers e).sp = s.sp := rfl
@[simp] theorem State.advanceTimers_stack (s : State) (e : Rat) : (s.advanceTimers e).stack = s.stack := rfl
@[simp] theorem State.advanceTimers_dt (s : State) (e : Rat) : (s.advanceTimers e).dt = countDown s.dt (timeSteps (s.acc + e)) := rfl
@[simp] theorem State.advanceTimers_st (s : State) (e : Rat) : (s.advanceTimers e).st = countDown s.st (timeSteps (s.acc + e)) := rfl
@[simp] theorem State.advanceTimers_acc (s : State) (e : Rat) : (s.advanceTimers e).acc = s.acc + e - timeSteps (s.acc + e) / 60 := rfl
@[simp] theorem State.advanceTimers_disp (s : State) (e : Rat) : (s.advanceTimers e).disp = s.disp := rfl
@[simp] theorem State.advanceTimers_redraw (s : State) (e : Rat) : (s.advanceTimers e).redraw = s.redraw := rfl
@[simp] theorem State.advanceTimers_keys (s : State) (e : Rat) : (s.advanceTimers e).keys = s.keys := rfl
@[simp] theorem State.advanceTimers_fault (s : State) (e : Rat) : (s.advanceTimers e).fault = s.fault := rfl
@[simp] theorem State.advanceTimers_mem (s : State) (e : Rat) : (s.advanceTimers e).mem = s.mem := rfl
@[simp] theorem State.advanceTimers_params (s : State) (e : Rat) : (s.advanceTimers e).params = s.params := rfl
@[simp] theorem State.advanceTimers_elapsed (s : State) (e : Rat) : (s.advanceTimers e).elapsed = s.elapsed := rfl
@[simp] theorem State.advanceTimers_pending (s : State) (e : Rat) : (s.advanceTimers e).pending = s.pending := rfl
@[simp] theorem State.advanceTimers_rngQueue (s : State) (e : Rat) : (s.advanceTimers e).rngQueue = s.rngQueue := rfl
@[simp] theorem State.advanceTimers_rngDraws (s : State) (e : Rat) : (s.advanceTimers e).rngDraws = s.rngDraws := rfl

/-! ## acceptInput -/

@[simp] theorem State.acceptInput_v (s : State) : s.acceptInput.v = s.v := by unfold State.acceptInput; split <;> rfl
@[simp] theorem State.acceptInput_pc (s : State) : s.acceptInput.pc = s.pc := by unfold State.acceptInput; split <;> rfl
@[simp] theorem State.acceptInput_i (s : State) : s.acceptInput.i = s.i := by unfold State.acceptInput; split <;> rfl
@[simp] theorem State.acceptInput_sp (s : State) : s.acceptInput.sp = s.sp := by unfold State.acceptInput; split <;> rfl
@[simp] theorem State.acceptInput_stack (s : State) : s.acceptInput.stack = s.stack := by unfold State.acceptInput; split <;> rfl
@[simp] theorem State.acceptInput_dt (s : State) : s.acceptInput.dt = s.dt := by unfold State.acceptInput; split <;> rfl
@[simp] theorem State.acceptInput_st (s : State) : s.acceptInput.st = s.st := by unfold State.acceptInput; split <;> rfl
@[simp] theorem State.acceptInput_acc (s : State) : s.acceptInput.acc = s.acc := by unfold State.acceptInput; split <;> rfl
@[simp] theorem State.acceptInput_disp (s : State) : s.acceptInput.disp = s.disp := by unfold State.acceptInput; split <;> rfl
@[simp] theorem State.acceptInput_redraw (s : State) : s.acceptInput.redraw = s.redraw := by unfold State.acceptInput; split <;> rfl
@[simp] theorem State.acceptInput_fault (s : State) : s.acceptInput.fault = s.fault := by unfold State.acceptInput; split <;> rfl
@[simp] theorem State.acceptInput_mem (s : State) : s.acceptInput.mem = s.mem := by unfold State.acceptInput; split <;> rfl
@[simp] theorem State.acceptInput_params (s : State) : s.acceptInput.params = s.params := by unfold State.acceptInput; split <;> rfl
@[simp] theorem State.acceptInput_rngQueue (s : State) : s.acceptInput.rngQueue = s.rngQueue := by unfold State.acceptInput; split <;> rfl
@[simp] theorem State.acceptInput_rngDraws (s : State) : s.acceptInput.rngDraws = s.rngDraws := by unfold State.acceptInput; split <;> rfl

@[simp] theorem State.acceptInput_pending (s : State) : s.acceptInput.pending = s.pending.tail := by
  unfold State.acceptInput; split <;> simp_all

/-! ## Registers and bytes after the updates -/

theorem State.reg_setReg (s : State) (r q : Nibble) (b : Byte) : (s.setReg r b).reg q = if q = r then b else s.reg q := by
  unfold State.reg State.setReg
  by_cases h : q = r
  · subst h; simp
  · have : r.toNat ≠ q.toNat := fun e => h (BitVec.eq_of_toNat_eq e.symm)
    simp [h, Vector.getElem_set_ne _ _ this]

@[simp] theorem State.reg_setReg_self (s : State) (r : Nibble) (b : Byte) : (s.setReg r b).reg r = b := by
  simp [State.reg_setReg]

theorem State.reg_setReg_ne (s : State) {r q : Nibble} (b : Byte) (h : q ≠ r) : (s.setReg r b).reg q = s.reg q := by
  simp [State.reg_setReg, h]

/-- Registers depend on V alone. -/
theorem State.reg_congr {s t : State} (h : t.v = s.v) (r : Nibble) : t.reg r = s.reg r := by
  unfold State.reg; simp [h]

/-- Bytes depend on M and FONT alone. -/
theorem State.readByte_congr {s t : State} (hm : t.mem = s.mem) (hp : t.params = s.params) (a : Nat) :
    t.readByte a = s.readByte a := by
  unfold State.readByte; rw [hm, hp]

@[simp] theorem State.reg_setPc (s : State) (p : Word) (r : Nibble) : (s.setPc p).reg r = s.reg r := rfl

@[simp] theorem State.reg_setI (s : State) (w : Word) (r : Nibble) : (s.setI w).reg r = s.reg r := rfl

@[simp] theorem State.reg_setDt (s : State) (b : Byte) (r : Nibble) : (s.setDt b).reg r = s.reg r := rfl

@[simp] theorem State.reg_setSt (s : State) (b : Byte) (r : Nibble) : (s.setSt b).reg r = s.reg r := rfl

@[simp] theorem State.reg_setFault (s : State) (f : FaultRecord) (r : Nibble) : (s.setFault f).reg r = s.reg r := rfl

@[simp] theorem State.reg_setDisp (s : State) (d : Display) (r : Nibble) : (s.setDisp d).reg r = s.reg r := rfl

@[simp] theorem State.reg_push (s : State) (w : Word) (r : Nibble) : (s.push w).reg r = s.reg r := rfl

@[simp] theorem State.reg_pop (s : State) (r : Nibble) : s.pop.reg r = s.reg r := rfl

@[simp] theorem State.reg_afterDraw (s : State) (r : Nibble) : s.afterDraw.reg r = s.reg r := rfl

@[simp] theorem State.readByte_setPc (s : State) (p : Word) (a : Nat) : (s.setPc p).readByte a = s.readByte a := rfl

@[simp] theorem State.readByte_setI (s : State) (w : Word) (a : Nat) : (s.setI w).readByte a = s.readByte a := rfl

@[simp] theorem State.readByte_setDisp (s : State) (d : Display) (a : Nat) : (s.setDisp d).readByte a = s.readByte a := rfl

@[simp] theorem State.setReg_readByte (s : State) (r : Nibble) (b : Byte) (a : Nat) :
    (s.setReg r b).readByte a = s.readByte a := rfl

@[simp] theorem State.writeBytes_reg (s : State) (a : Nat) (bs : List Byte) (r : Nibble) :
    (s.writeBytes a bs).reg r = s.reg r := rfl

@[simp] theorem State.acceptInput_reg (s : State) (r : Nibble) : s.acceptInput.reg r = s.reg r :=
  State.reg_congr (by simp) r

@[simp] theorem State.acceptInput_readByte (s : State) (a : Nat) : s.acceptInput.readByte a = s.readByte a :=
  State.readByte_congr (by simp) (by simp) a

end Sys2Proof.Machine
end

