-- ==== Sys2Proof/Laws/Memory.lean ====
section
/-! SUPPORT. Memory: what a write changes, that it keeps the canonical form, that the canonical form is canonical, and
what the bounds check says. -/

namespace Sys2Proof.Machine

open Sys2Proof

/-! ## The canonical form -/

/-- The canonical form of a non-empty list, as facts about its head and its tail. -/
theorem memWfFrom_cons {font : Font} {lo a : Nat} {v : Byte} {rest : List Host.Cell} :
    memWfFrom font lo ((a, v) :: rest) = true ↔
      lo ≤ a ∧ a < memSize ∧ v ≠ initialByte font a ∧ memWfFrom font (a + 1) rest = true := by
  simp [memWfFrom, and_assoc]

theorem memWfFrom_mono {font : Font} {lo lo' : Nat} {m : List Host.Cell} (h : memWfFrom font lo m = true)
    (hle : lo' ≤ lo) : memWfFrom font lo' m = true := by
  cases m with
  | nil => rfl
  | cons c rest =>
    obtain ⟨h1, h2⟩ := memWfFrom_cons.1 h
    exact memWfFrom_cons.2 ⟨by omega, h2⟩

/-- Below its first address a canonical list lists nothing. -/
theorem memRead_below {font : Font} {lo a : Nat} {m : List Host.Cell} (h : memWfFrom font lo m = true) (ha : a < lo) :
    memRead font m a = initialByte font a := by
  induction m generalizing lo with
  | nil => rfl
  | cons c rest ih =>
    obtain ⟨h1, -, -, h4⟩ := memWfFrom_cons.1 h
    rw [memRead, if_neg (by omega)]
    exact ih h4 (by omega)

/-- At and above the end of memory a canonical list lists nothing. -/
theorem memRead_above {font : Font} {lo a : Nat} {m : List Host.Cell} (h : memWfFrom font lo m = true) (ha : memSize ≤ a) :
    memRead font m a = initialByte font a := by
  induction m generalizing lo with
  | nil => rfl
  | cons c rest ih =>
    obtain ⟨-, h2, -, h4⟩ := memWfFrom_cons.1 h
    rw [memRead, if_neg (by omega)]
    exact ih h4

/-! ## One byte written -/

/-- A read after a write: the byte written, and every other address as before. -/
theorem memRead_memWrite {font : Font} {lo : Nat} {m : List Host.Cell} (h : memWfFrom font lo m = true) (a b : Nat)
    (v : Byte) : memRead font (memWrite font m a v) b = if b = a then v else memRead font m b := by
  induction m generalizing lo with
  | nil => by_cases hv : v = initialByte font a <;> by_cases hb : b = a <;> simp_all [memWrite, memRead]
  | cons c rest ih =>
    obtain ⟨k, w⟩ := c
    obtain ⟨-, -, -, h4⟩ := memWfFrom_cons.1 h
    unfold memWrite
    rcases Nat.lt_trichotomy a k with hak | hak | hak
    · have hra : memRead font rest a = initialByte font a := memRead_below h4 (by omega)
      by_cases hv : v = initialByte font a <;> by_cases hb : b = a <;> simp_all [memRead, Nat.ne_of_lt hak]
    · subst hak
      have hra : memRead font rest a = initialByte font a := memRead_below h4 (by omega)
      by_cases hv : v = initialByte font a <;> by_cases hb : b = a <;> simp_all [memRead]
    · rw [if_neg (by omega), if_neg (by omega), memRead, ih h4]
      by_cases hb : b = k
      · subst hb; simp [memRead, Nat.ne_of_lt hak]
      · simp [memRead, hb]

/-- A write inside memory keeps the canonical form. -/
theorem memWfFrom_memWrite {font : Font} {lo a : Nat} {m : List Host.Cell} (h : memWfFrom font lo m = true) (v : Byte)
    (hlo : lo ≤ a) (ha : a < memSize) : memWfFrom font lo (memWrite font m a v) = true := by
  induction m generalizing lo with
  | nil =>
    unfold memWrite
    split
    · rfl
    · exact memWfFrom_cons.2 ⟨hlo, ha, ‹_›, rfl⟩
  | cons c rest ih =>
    obtain ⟨k, w⟩ := c
    obtain ⟨h1, h2, h3, h4⟩ := memWfFrom_cons.1 h
    unfold memWrite
    split
    · split
      · exact h
      · exact memWfFrom_cons.2 ⟨hlo, ha, ‹_›, memWfFrom_cons.2 ⟨by omega, h2, h3, h4⟩⟩
    · split
      · subst a
        split
        · exact memWfFrom_mono h4 (by omega)
        · exact memWfFrom_cons.2 ⟨h1, h2, ‹_›, h4⟩
      · exact memWfFrom_cons.2 ⟨h1, h2, h3, ih h4 (by omega)⟩

/-! ## Bytes written at ascending addresses -/

theorem memWfFrom_memWriteList {font : Font} {m : List Host.Cell} (h : memWfFrom font 0 m = true) (a : Nat)
    (bs : List Byte) (ha : a + bs.length ≤ memSize) : memWfFrom font 0 (memWriteList font m a bs) = true := by
  induction bs generalizing m a with
  | nil => exact h
  | cons b bs ih =>
    simp only [List.length_cons] at ha
    exact ih (memWfFrom_memWrite h b (Nat.zero_le _) (by omega)) (a + 1) (by omega)

/-- What a multi-byte write leaves at every address. -/
theorem memRead_memWriteList {font : Font} {m : List Host.Cell} (h : memWfFrom font 0 m = true) (a : Nat)
    (bs : List Byte) (ha : a + bs.length ≤ memSize) (b : Nat) :
    memRead font (memWriteList font m a bs) b =
      if a ≤ b then (bs[b - a]?).getD (memRead font m b) else memRead font m b := by
  induction bs generalizing m a with
  | nil => simp [memWriteList]
  | cons w bs ih =>
    simp only [List.length_cons] at ha
    rw [memWriteList, ih (memWfFrom_memWrite h w (Nat.zero_le _) (by omega)) (a + 1) (by omega),
      memRead_memWrite h a b w]
    rcases Nat.lt_trichotomy a b with hab | hab | hab
    · obtain ⟨d, rfl⟩ : ∃ d, b = a + 1 + d := ⟨b - (a + 1), by omega⟩
      simp [show a ≤ a + 1 + d by omega, show ¬ a + 1 + d = a by omega, show a + 1 + d - a = d + 1 by omega]
    · subst hab; simp
    · simp [show ¬ a + 1 ≤ b by omega, show ¬ a ≤ b by omega, show ¬ b = a by omega]

/-- The state reads, after a checked write, the bytes written and every other byte as before. -/
theorem State.readByte_writeBytes {s : State} (h : Memory.wf s.params.font s.mem = true) (a : Nat) (bs : List Byte)
    (ha : a + bs.length ≤ memSize) (b : Nat) :
    (s.writeBytes a bs).readByte b = if a ≤ b then (bs[b - a]?).getD (s.readByte b) else s.readByte b :=
  memRead_memWriteList h a bs ha b

/-- A checked write keeps the canonical form. -/
theorem State.writeBytes_wf {s : State} (h : Memory.wf s.params.font s.mem = true) (a : Nat) (bs : List Byte)
    (ha : a + bs.length ≤ memSize) :
    Memory.wf (s.writeBytes a bs).params.font (s.writeBytes a bs).mem = true :=
  memWfFrom_memWriteList h a bs ha

/-- Memory has its canonical form at reset. -/
theorem State.reset_memory_wf : Memory.wf State.reset.params.font State.reset.mem = true := rfl

/-! ## The bounds check -/

/-- The check passes exactly when no access is above 0xFFF. -/
theorem firstOutOfRange_eq_none {a n : Nat} : firstOutOfRange a n = none ↔ n = 0 ∨ a + n ≤ memSize := by
  simp only [firstOutOfRange, List.find?_eq_none, List.mem_map, List.mem_range, memSize]
  constructor
  · intro h
    by_contra hc
    have := h (a + (n - 1)) ⟨n - 1, by omega, rfl⟩
    simp at this
    omega
  · rintro h x ⟨k, hk, rfl⟩
    simp
    omega

/-- What the check gives where it fails: the least address above 0xFFF. -/
theorem firstOutOfRange_of_lt {a n : Nat} (hn : 0 < n) (h : memSize < a + n) :
    firstOutOfRange a n = some (if 0xFFF < a then a else 0x1000) := by
  unfold memSize at h
  rw [firstOutOfRange, List.find?_eq_some_iff_append]
  by_cases ha : 0xFFF < a
  · refine ⟨by simp [ha], [], (List.range (n - 1)).map fun k => a + (k + 1), ?_, by simp⟩
    obtain ⟨m, rfl⟩ : ∃ m, n = m + 1 := ⟨n - 1, by omega⟩
    simp [ha, List.range_succ_eq_map, Function.comp_def]
  · obtain ⟨p, hp⟩ : ∃ p, a + p = 0x1000 := ⟨0x1000 - a, by omega⟩
    obtain ⟨q, rfl⟩ : ∃ q, n = p + (q + 1) := ⟨n - p - 1, by omega⟩
    refine ⟨by simp [ha], (List.range p).map fun k => a + k, (List.range q).map fun k => a + (p + (k + 1)), ?_, ?_⟩
    · rw [List.range_add, List.map_append, List.range_succ_eq_map]
      simp [ha, hp, Function.comp_def]
    · simp only [List.mem_map, List.mem_range]
      rintro x ⟨k, hk, rfl⟩
      simp
      omega

/-- `withRange` where every address exists. -/
theorem State.withRange_ok {s : State} {n : Nat} (k : Result) (h : n = 0 ∨ s.iAddr + n ≤ memSize) :
    s.withRange n k = k := by
  unfold State.withRange; rw [firstOutOfRange_eq_none.2 h]

/-- `withRange` where some address does not exist. -/
theorem State.withRange_fault {s : State} {n : Nat} (k : Result) (hn : 0 < n) (h : memSize < s.iAddr + n) :
    s.withRange n k = s.raise .memoryBoundsViolation (some (if 0xFFF < s.iAddr then s.iAddr else 0x1000)) := by
  unfold State.withRange; rw [firstOutOfRange_of_lt hn h]

/-- What `withRange` can answer: its instruction's own answer, or the fault. -/
theorem State.withRange_cases (s : State) (n : Nat) (k : Result) :
    (s.withRange n k = k ∧ (n = 0 ∨ s.iAddr + n ≤ memSize)) ∨
    (∃ a, 0xFFF < a ∧ s.withRange n k = s.raise .memoryBoundsViolation (some a)) := by
  by_cases h : n = 0 ∨ s.iAddr + n ≤ memSize
  · exact .inl ⟨State.withRange_ok k h, h⟩
  · refine .inr ⟨_, ?_, State.withRange_fault k (by omega) (by omega)⟩
    split <;> omega

end Sys2Proof.Machine
end

