-- ==== Sys2Proof/Laws/Ops.lean ====
section
/-! SUPPORT. What each shared ending of an instruction answers, with its frame: `finish`, `raise`, `skipIf`, `putResult`,
`putResultFlag`; and the operand forms by number. -/

namespace Sys2Proof.Machine

open Sys2Proof

/-! ## Frames -/

theorem Frame.refl (s : State) : Frame [] [] s s := by constructor <;> intros <;> rfl

/-- A frame may be read as one that allows more. -/
theorem Frame.weaken {regs regs' : List Nibble} {fields fields' : List Field} {s t : State} (h : Frame regs fields s t)
    (hr : ∀ r, r ∈ regs → r ∈ regs') (hf : ∀ f, f ∈ fields → f ∈ fields') : Frame regs' fields' s t where
  regs r hn := h.regs r fun hm => hn (hr r hm)
  index hn := h.index fun hm => hn (hf _ hm)
  depth hn := h.depth fun hm => hn (hf _ hm)
  stack hn := h.stack fun hm => hn (hf _ hm)
  delay hn := h.delay fun hm => hn (hf _ hm)
  sound hn := h.sound fun hm => hn (hf _ hm)
  display hn := h.display fun hm => hn (hf _ hm)
  redraw hn := h.redraw fun hm => hn (hf _ hm)
  memory hn := h.memory fun hm => hn (hf _ hm)
  rngQueue hn := h.rngQueue fun hm => hn (hf _ hm)
  rngDraws hn := h.rngDraws fun hm => hn (hf _ hm)
  fault hn := h.fault fun hm => hn (hf _ hm)
  acc := h.acc
  keys := h.keys
  params := h.params
  elapsed := h.elapsed
  pending := h.pending

/-- PC is in no frame. -/
theorem Frame.withPc {regs : List Nibble} {fields : List Field} {s t : State} (h : Frame regs fields s t) (p : Word) :
    Frame regs fields s (t.setPc p) := by cases h; constructor <;> assumption

/-- One register written. -/
theorem Frame.setReg (s : State) (x : Nibble) (b : Byte) : Frame [x] [] s (s.setReg x b) := by
  constructor <;> intros <;> first | rfl | exact State.reg_setReg_ne _ _ (by simp_all)

/-- A result and then a flag written. -/
theorem Frame.setRegFlag (s : State) (x : Nibble) (b f : Byte) : Frame [x, vf] [] s ((s.setReg x b).setReg vf f) := by
  constructor <;> intros <;> first | rfl | (rw [State.reg_setReg_ne, State.reg_setReg_ne] <;> simp_all)

/-! ## The endings of an instruction -/

theorem State.finish_eq (s : State) (act : PcAction) : s.finish act = .next (s.setPc (nextPc s.pc act)) := rfl

theorem State.raise_eq (s : State) (kind : FaultKind) (addr : Option Nat) :
    s.raise kind addr = .next (s.setFault ⟨kind, s.pc, addr⟩) := rfl

theorem State.skipIf_eq (s : State) (c : Bool) :
    s.skipIf c = .next (s.setPc (if c = true then s.pc + 4 else s.pc + 2)) := by
  cases c <;> rfl

theorem State.putResult_spec (s : State) (x : Nibble) (b : Byte) :
    ∃ t, s.putResult x b = .next t ∧ t.reg x = b ∧ t.pc = s.pc + 2 ∧ Frame [x] [] s t :=
  ⟨_, rfl, by simp, rfl, (Frame.setReg s x b).withPc _⟩

theorem State.putResultFlag_spec (s : State) (x : Nibble) (b f : Byte) :
    ∃ t, s.putResultFlag x b f = .next t ∧ (x ≠ vf → t.reg x = b) ∧ t.reg vf = f ∧ t.pc = s.pc + 2 ∧
      Frame [x, vf] [] s t :=
  ⟨_, rfl, fun h => (State.reg_setReg_ne _ _ h).trans (State.reg_setReg_self _ _ _), by simp, rfl, (Frame.setRegFlag s x b f).withPc _⟩

/-! ## Operand forms and flags by number -/

@[simp] theorem zextNNN_toNat (nnn : Addr12) : (zextNNN nnn).toNat = nnn.toNat := by
  have := nnn.isLt
  simp [zextNNN]; omega

@[simp] theorem zextByte_toNat (b : Byte) : (zextByte b).toNat = b.toNat := by
  have := b.isLt
  simp [zextByte]; omega

/-- The glyph address is 5 times the low nibble (R187). -/
theorem glyphAddr_toNat : ∀ b : Byte, (glyphAddr b).toNat = 5 * (b.toNat % 16) := by decide

/-- A byte names the key of its value, if there is one (R220). -/
theorem keyIndex_eq_some {b : Byte} {k : Nibble} : keyIndex b = some k ↔ b.toNat = k.toNat := by
  have := b.isLt
  have := k.isLt
  unfold keyIndex
  split
  · rw [Option.some_inj, ← BitVec.toNat_inj, BitVec.toNat_setWidth]
    omega
  · simp
    omega

theorem keyIndex_eq_none {b : Byte} : keyIndex b = none ↔ 0xF < b.toNat := by
  unfold keyIndex
  split <;> simp <;> omega

theorem shiftRightFlag_toNat : ∀ a : Byte, (shiftRightFlag a).toNat = a.toNat % 2 := by decide

theorem shiftLeftFlag_eq : ∀ a : Byte, shiftLeftFlag a = if 0x80 ≤ a.toNat then 0x01 else 0x00 := by decide

/-- A flag byte is 0x00 or 0x01 (R22). -/
theorem flag_eq (b : Bool) : flag b = 0x00 ∨ flag b = 0x01 := by cases b <;> simp [flag]

/-- The digits of a byte, by number (R188). -/
theorem bcdDigits_toNat (b : Byte) :
    (bcdDigits b).map BitVec.toNat = [b.toNat / 100, b.toNat / 10 % 10, b.toNat % 10] := by
  simp [bcdDigits]

/-- The byte the k-th position of a register range holds (R189). -/
theorem State.regsUpTo_getElem? (s : State) (x r : Nibble) (h : r.toNat ≤ x.toNat) :
    (s.regsUpTo x)[r.toNat]? = some (s.reg r) := by
  unfold State.regsUpTo
  rw [List.getElem?_map, List.getElem?_range (by omega)]
  simp

theorem State.regsUpTo_length (s : State) (x : Nibble) : (s.regsUpTo x).length = x.toNat + 1 := by
  simp [State.regsUpTo]

/-! ## A range of registers loaded (R190) -/

/-- The registers after loading the first `n` of a range. -/
theorem State.loadRange_spec (s : State) (a n : Nat) (hn : n ≤ 16) :
    (∀ r : Nibble, State.reg ((List.range n).foldl
        (fun t k => t.setReg (BitVec.ofNat 4 k) (t.readByte (a + k))) s) r =
      if r.toNat < n then s.readByte (a + r.toNat) else s.reg r) ∧
    ∃ v, (List.range n).foldl (fun t k => t.setReg (BitVec.ofNat 4 k) (t.readByte (a + k))) s = { s with v := v } := by
  induction n with
  | zero => exact ⟨fun r => by simp, s.v, rfl⟩
  | succ n ih =>
    obtain ⟨h1, v, h2⟩ := ih (by omega)
    rw [List.range_succ, List.foldl_append, List.foldl_cons, List.foldl_nil]
    refine ⟨fun r => ?_, ?_⟩
    · rw [State.reg_setReg, h1]
      have hr := r.isLt
      have hb : State.readByte ((List.range n).foldl
          (fun t k => t.setReg (BitVec.ofNat 4 k) (t.readByte (a + k))) s) (a + n) = s.readByte (a + n) := by
        rw [h2]; rfl
      by_cases h : r = BitVec.ofNat 4 n
      · have e : r.toNat = n := by rw [h, BitVec.toNat_ofNat]; omega
        rw [if_pos h, hb, if_pos (by omega), e]
      · have e : r.toNat ≠ n := fun e => h (by rw [← e]; simp)
        rw [if_neg h]
        split <;> split <;> first | rfl | omega
    · rw [h2]; exact ⟨_, rfl⟩

/-- What a checked range load leaves in every register, and that it writes nothing else. -/
theorem State.loadRegs_spec (s : State) (a : Nat) (x : Nibble) :
    (∀ r, (s.loadRegs a x).reg r = if r.toNat ≤ x.toNat then s.readByte (a + r.toNat) else s.reg r) ∧
    ∃ v, s.loadRegs a x = { s with v := v } := by
  have hx := x.isLt
  obtain ⟨h1, h2⟩ := State.loadRange_spec s a (x.toNat + 1) (by omega)
  exact ⟨fun r => (h1 r).trans (by simp only [Nat.lt_succ_iff]), h2⟩

/-! ## The keys (R222) -/

/-- The least pressed key is pressed, and no lesser one is. -/
theorem State.leastKey_eq_some {s : State} {k : Nibble} :
    s.leastKey = some k ↔ s.keyDown k = true ∧ ∀ j : Nibble, j.toNat < k.toNat → s.keyDown j = false := by
  have hk := k.isLt
  unfold State.leastKey
  rw [List.find?_eq_some_iff_getElem]
  constructor
  · rintro ⟨h1, i, hi, hik, h2⟩
    refine ⟨h1, fun j hj => ?_⟩
    simp only [List.length_map, List.length_range] at hi
    have e : i = k.toNat := by rw [← hik]; simp; omega
    have := h2 j.toNat (by omega)
    simpa using this
  · rintro ⟨h1, h2⟩
    refine ⟨h1, k.toNat, by simpa using hk, by simp, fun j hj => ?_⟩
    have := h2 (BitVec.ofNat 4 j) (by simp; omega)
    simpa using this

theorem State.leastKey_eq_none {s : State} : s.leastKey = none ↔ ∀ k, s.keyDown k = false := by
  unfold State.leastKey
  simp only [List.find?_eq_none, List.mem_map, List.mem_range, forall_exists_index, and_imp]
  constructor
  · intro h k
    simpa using h k k.toNat k.isLt (by simp)
  · rintro h k j - rfl
    simp [h]

end Sys2Proof.Machine
end

