-- ==== Sys2Proof/Laws/Display.lean ====
section
/-! SUPPORT. The display: what one toggle and a list of toggles do to a cell, and when they collide (48_display.md R231,
R233). -/

namespace Sys2Proof.Machine

open Sys2Proof

/-- A toggle inverts its own cell and leaves every other cell. -/
theorem cellOf_toggle (d : Display) (k j : Nat) (hk : k < 2048) :
    cellOf (toggle d k) j = (cellOf d j != decide (j = k)) := by
  unfold cellOf toggle
  rw [dif_pos hk]
  by_cases hj : j < 2048
  · rw [dif_pos hj, dif_pos hj, Vector.getElem_set]
    split
    · rename_i he
      simp only [← he, BitVec.getLsbD_xor, BitVec.getLsbD_shiftLeft]
      have : (decide (j % 64 < 64) && !decide (j % 64 < k % 64) && (1#64).getLsbD (j % 64 - k % 64)) = decide (j = k) := by
        by_cases hjk : j = k
        · subst hjk; simp [Nat.mod_lt]
        · have hne : j % 64 ≠ k % 64 := fun e => hjk (by omega)
          by_cases hlt : j % 64 < k % 64
          · simp [hlt, hjk]
          · simp [hlt, hjk, BitVec.getLsbD_one]; omega
      rw [this]
    · rename_i he
      have : j ≠ k := fun e => he (by rw [e])
      simp [this]
  · have : j ≠ k := by omega
    simp [hj, this]

/-- The empty display. -/
@[simp] theorem cellOf_empty (k : Nat) : cellOf (Vector.replicate 32 0) k = false := by
  unfold cellOf; split <;> simp

/-- Displays with the same cells are the same. -/
theorem display_ext {d d' : Display} (h : ∀ k, k < 2048 → cellOf d k = cellOf d' k) : d = d' := by
  apply Vector.ext
  intro i hi
  apply BitVec.eq_of_getLsbD_eq
  intro j hj
  have := h (64 * i + j) (by omega)
  simpa [cellOf, show 64 * i + j < 2048 by omega, show (64 * i + j) / 64 = i by omega,
    show (64 * i + j) % 64 = j by omega] using this

/-- A list of toggles, from any display and any collision so far: every cell ends as its old value XOR the parity of its
toggles, and there is a collision if there was one or some cell is toggled twice or is toggled and was set. -/
theorem foldl_toggleStep_spec (cells : List Nat) (h : ∀ k ∈ cells, k < 2048) (d : Display) (c : Bool) :
    (∀ j, cellOf (cells.foldl toggleStep (d, c)).1 j = (cellOf d j != decide (cells.count j % 2 = 1))) ∧
    ((cells.foldl toggleStep (d, c)).2 = true ↔
      c = true ∨ ∃ j, 2 ≤ cells.count j ∨ 1 ≤ cells.count j ∧ cellOf d j = true) := by
  induction cells generalizing d c with
  | nil => simp
  | cons k rest ih =>
    have hk : k < 2048 := h k (by simp)
    obtain ⟨h1, h2⟩ := ih (fun j hj => h j (by simp [hj])) (toggle d k) (c || cellOf d k)
    refine ⟨fun j => ?_, ?_⟩
    · rw [List.foldl_cons, toggleStep, h1, cellOf_toggle d k j hk, List.count_cons]
      by_cases hjk : j = k
      · subst hjk
        rcases Nat.mod_two_eq_zero_or_one (rest.count j) with e | e <;> cases cellOf d j <;>
          simp [Nat.add_mod, e]
      · have : (k == j) = false := by simp [Ne.symm hjk]
        simp [hjk, this]
    · rw [List.foldl_cons, toggleStep, h2]
      constructor
      · rintro (hc | ⟨j, hj⟩)
        · simp only [Bool.or_eq_true] at hc
          rcases hc with hc | hc
          · exact .inl hc
          · exact .inr ⟨k, .inr ⟨by simp, hc⟩⟩
        · refine .inr ⟨j, ?_⟩
          rw [List.count_cons]
          rcases hj with hj | ⟨hj, hd⟩
          · exact .inl (by omega)
          · by_cases hjk : j = k
            · subst hjk
              simp only [beq_self_eq_true, if_true]
              exact .inl (by omega)
            · rw [cellOf_toggle d k j hk] at hd
              simp [hjk] at hd
              exact .inr ⟨by omega, hd⟩
      · rintro (hc | ⟨j, hj⟩)
        · exact .inl (by simp [hc])
        · rw [List.count_cons] at hj
          by_cases hjk : j = k
          · subst hjk
            cases hd : cellOf d j
            · simp only [beq_self_eq_true, if_true, hd, Bool.false_eq_true, and_false, or_false] at hj
              exact .inr ⟨j, .inr ⟨by omega, by rw [cellOf_toggle d j j hk]; simp [hd]⟩⟩
            · exact .inl (by simp)
          · have hb : (k == j) = false := by simp [Ne.symm hjk]
            simp only [hb, Bool.false_eq_true, if_false, Nat.add_zero] at hj
            refine .inr ⟨j, ?_⟩
            rw [cellOf_toggle d k j hk]
            simpa [hjk] using hj

/-- The sprite engine, said once (R233). -/
theorem applyToggles_spec (d : Display) (cells : List Nat) (h : ∀ k ∈ cells, k < 2048) :
    (∀ j, cellOf (applyToggles d cells).1 j = (cellOf d j != decide (cells.count j % 2 = 1))) ∧
    ((applyToggles d cells).2 = true ↔ ∃ j, 2 ≤ cells.count j ∨ 1 ≤ cells.count j ∧ cellOf d j = true) := by
  obtain ⟨h1, h2⟩ := foldl_toggleStep_spec cells h d false
  exact ⟨h1, h2.trans (by simp)⟩

/-- Every policy places a pixel on the grid (R232). -/
theorem spriteCell_lt (edge : DrawEdge) (x y : Nat) : spriteCell edge x y < 2048 := by
  cases edge <;> simp only [spriteCell] <;> omega

/-- The cells of a sprite are on the grid. -/
theorem spriteCells_lt (edge : DrawEdge) (x0 y0 : Nat) (rows : List Byte) :
    ∀ k ∈ spriteCells edge x0 y0 rows, k < 2048 := by
  induction rows generalizing y0 with
  | nil => simp [spriteCells]
  | cons row rows ih =>
    intro k hk
    simp only [spriteCells, List.mem_append, List.mem_map] at hk
    rcases hk with ⟨c, -, rfl⟩ | hk
    · exact spriteCell_lt _ _ _
    · exact ih _ k hk

end Sys2Proof.Machine
end

