-- ==== Sys2Proof/Laws/Exec.lean ====
section
/-! SUPPORT. What an instruction can do, said once: it raises its one fault and changes nothing else, or it runs within
its frame. -/

namespace Sys2Proof.Machine

open Sys2Proof

/-- `t` is `s` with the one fault `i` can raise recorded (60_exceptions.md R251, R255). -/
def Raised (i : Instr) (s t : State) : Prop :=
  ∃ kind addr, raises i = some kind ∧ (addr.isSome = true ↔ kind = .memoryBoundsViolation) ∧
    (∀ a, addr = some a → 0xFFF < a) ∧ t = s.setFault ⟨kind, s.pc, addr⟩

/-- The memory instructions: the fault of the range, or the instruction's own state. -/
theorem withRange_raised_or {i : Instr} {s t u : State} {n : Nat} (hi : raises i = some .memoryBoundsViolation)
    (h : s.withRange n (.next u) = .next t) : Raised i s t ∨ (t = u ∧ (n = 0 ∨ s.iAddr + n ≤ memSize)) := by
  rcases State.withRange_cases s n (.next u) with ⟨e, hn⟩ | ⟨a, ha, e⟩
  · exact .inr ⟨by rw [e] at h; cases h; rfl, hn⟩
  · rw [e] at h
    cases h
    exact .inl ⟨_, some a, hi, by simp, by simpa using ha, rfl⟩

/-- Every instruction answers a next state, whatever the state: a fault is a next state that holds its record (log 11). -/
theorem exec_answers_next (i : Instr) (s : State) : ∃ t, exec i s = .next t := by
  cases i with
  | call nnn => simp only [exec, execCall]; split <;> exact ⟨_, rfl⟩
  | ret => simp only [exec, execRet]; split <;> exact ⟨_, rfl⟩
  | skp x => simp only [exec, execSkp]; split <;> exact ⟨_, rfl⟩
  | sknp x => simp only [exec, execSknp]; split <;> exact ⟨_, rfl⟩
  | ldVxK x => simp only [exec, execLdVxK]; split <;> exact ⟨_, rfl⟩
  | drw x y n => simp only [exec, execDrw, State.withRange]; split <;> exact ⟨_, rfl⟩
  | ldBVx x => simp only [exec, execLdBVx, State.withRange]; split <;> exact ⟨_, rfl⟩
  | ldMemVx x => simp only [exec, execLdMemVx, State.withRange]; split <;> exact ⟨_, rfl⟩
  | ldVxMem x => simp only [exec, execLdVxMem, State.withRange]; split <;> exact ⟨_, rfl⟩
  | _ => exact ⟨_, rfl⟩

/-- The register list of LD Vx, [I] is V0..Vx. -/
theorem mem_regsWritten_ldVxMem {x r : Nibble} : r ∈ regsWritten (.ldVxMem x) ↔ r.toNat ≤ x.toNat := by
  have := x.isLt
  simp only [regsWritten, List.mem_map, List.mem_range]
  constructor
  · rintro ⟨k, hk, rfl⟩
    simp
    omega
  · intro h
    exact ⟨r.toNat, by omega, by simp⟩

/-- Loading a range writes V0..Vx and nothing else. -/
theorem Frame.loadRegs (s : State) (a : Nat) (x : Nibble) : Frame (regsWritten (.ldVxMem x)) [] s (s.loadRegs a x) := by
  obtain ⟨h1, v, h2⟩ := State.loadRegs_spec s a x
  constructor
  case regs => intro r hr; rw [mem_regsWritten_ldVxMem] at hr; rw [h1, if_neg hr]
  all_goals (rw [h2]; try (intros; rfl))

/-- An instruction raises its one fault and changes nothing else, or runs within its frame. -/
theorem exec_raised_or_framed (i : Instr) (s t : State) (h : exec i s = .next t) :
    Raised i s t ∨ Frame (regsWritten i) (ownFields i) s t := by
  cases i with
  | call nnn =>
    simp only [exec, execCall] at h
    split at h <;> cases h
    · right; constructor <;> intros <;> first | rfl | simp_all [ownFields]
    · exact .inl ⟨_, none, rfl, by simp, by simp, rfl⟩
  | ret =>
    simp only [exec, execRet] at h
    split at h <;> cases h
    · right; constructor <;> intros <;> first | rfl | simp_all [ownFields]
    · exact .inl ⟨_, none, rfl, by simp, by simp, rfl⟩
  | skp x =>
    simp only [exec, execSkp] at h
    split at h <;> cases h
    · exact .inr ((Frame.refl s).withPc _)
    · exact .inl ⟨_, none, rfl, by simp, by simp, rfl⟩
  | sknp x =>
    simp only [exec, execSknp] at h
    split at h <;> cases h
    · exact .inr ((Frame.refl s).withPc _)
    · exact .inl ⟨_, none, rfl, by simp, by simp, rfl⟩
  | ldVxK x =>
    simp only [exec, execLdVxK] at h
    split at h <;> cases h
    · exact .inr ((Frame.setReg s x _).withPc _)
    · exact .inr (((Frame.refl s).withPc _).weaken (by simp) (by simp))
  | ldVxMem x =>
    refine (withRange_raised_or rfl h).imp_right fun e => ?_
    rw [e.1]
    have := (Frame.loadRegs s s.iAddr x).withPc (s.pc + 2)
    obtain ⟨-, v, h2⟩ := State.loadRegs_spec s s.iAddr x
    rw [h2] at this ⊢
    exact this
  | ldBVx x =>
    refine (withRange_raised_or rfl h).imp_right fun e => ?_
    rw [e.1]; constructor <;> intros <;> first | rfl | simp_all [ownFields]
  | ldMemVx x =>
    refine (withRange_raised_or rfl h).imp_right fun e => ?_
    rw [e.1]; constructor <;> intros <;> first | rfl | simp_all [ownFields]
  | drw x y n =>
    refine (withRange_raised_or rfl h).imp_right fun e => ?_
    rw [e.1]; constructor <;> intros <;> first | rfl | simp_all [ownFields, regsWritten, State.reg_setReg]
  | ldImm x kk => cases h; exact .inr ((Frame.setReg s x _).withPc _)
  | addImm x kk => cases h; exact .inr ((Frame.setReg s x _).withPc _)
  | ldReg x y => cases h; exact .inr ((Frame.setReg s x _).withPc _)
  | orReg x y => cases h; exact .inr ((Frame.setReg s x _).withPc _)
  | andReg x y => cases h; exact .inr ((Frame.setReg s x _).withPc _)
  | xorReg x y => cases h; exact .inr ((Frame.setReg s x _).withPc _)
  | addReg x y => cases h; exact .inr ((Frame.setRegFlag s x _ _).withPc _)
  | sub x y => cases h; exact .inr ((Frame.setRegFlag s x _ _).withPc _)
  | shr x y => cases h; exact .inr ((Frame.setRegFlag s x _ _).withPc _)
  | subn x y => cases h; exact .inr ((Frame.setRegFlag s x _ _).withPc _)
  | shl x y => cases h; exact .inr ((Frame.setRegFlag s x _ _).withPc _)
  | ldVxDt x => cases h; exact .inr ((Frame.setReg s x _).withPc _)
  | _ =>
    cases h
    right; constructor <;> intros <;> first | rfl | simp_all [ownFields, regsWritten, State.reg_setReg]

/-- A skip whose condition holds advances PC by 4 and does nothing else. -/
theorem exec_of_skipHolds {i : Instr} {s : State} (h : skipHolds s i) : exec i s = .next (s.setPc (s.pc + 4)) := by
  cases i with
  | seImm x kk => simp only [skipHolds] at h; simp [exec, execSeImm, State.skipIf_eq, h]
  | sneImm x kk => simp only [skipHolds] at h; simp [exec, execSneImm, State.skipIf_eq, h]
  | seReg x y n => simp only [skipHolds] at h; simp [exec, execSeReg, State.skipIf_eq, h]
  | sneReg x y n => simp only [skipHolds] at h; simp [exec, execSneReg, State.skipIf_eq, h]
  | skp x => obtain ⟨k, hk, hd⟩ := h; simp [exec, execSkp, keyIndex_eq_some.2 hk, State.skipIf_eq, hd]
  | sknp x => obtain ⟨k, hk, hd⟩ := h; simp [exec, execSknp, keyIndex_eq_some.2 hk, State.skipIf_eq, hd]
  | _ => exact h.elim

end Sys2Proof.Machine
end

