-- ==== Sys2Proof/Laws/PerInstr.lean ====
section
/-! SUPPORT. The family EncodedFields: what the fields of each instruction's word are (30_encoding.md R71, R78). -/

namespace Sys2Proof.Laws.EncodedFields

open Sys2Proof

/-- The word of an instruction carries its family, its selector and its operands in the fields of R71. -/
def Statement : Instr → Prop
  | .sys nnn => fieldF (encode (.sys nnn)) = 0x0 ∧ fieldNNN (encode (.sys nnn)) = nnn
  | .cls => encode .cls = 0x00E0
  | .ret => encode .ret = 0x00EE
  | .jp nnn => fieldF (encode (.jp nnn)) = 0x1 ∧ fieldNNN (encode (.jp nnn)) = nnn
  | .call nnn => fieldF (encode (.call nnn)) = 0x2 ∧ fieldNNN (encode (.call nnn)) = nnn
  | .seImm x kk => fieldF (encode (.seImm x kk)) = 0x3 ∧ fieldX (encode (.seImm x kk)) = x ∧ fieldKK (encode (.seImm x kk)) = kk
  | .sneImm x kk => fieldF (encode (.sneImm x kk)) = 0x4 ∧ fieldX (encode (.sneImm x kk)) = x ∧ fieldKK (encode (.sneImm x kk)) = kk
  | .seReg x y n =>
    fieldF (encode (.seReg x y n)) = 0x5 ∧ fieldX (encode (.seReg x y n)) = x ∧ fieldY (encode (.seReg x y n)) = y ∧
      fieldN (encode (.seReg x y n)) = n
  | .ldImm x kk => fieldF (encode (.ldImm x kk)) = 0x6 ∧ fieldX (encode (.ldImm x kk)) = x ∧ fieldKK (encode (.ldImm x kk)) = kk
  | .addImm x kk => fieldF (encode (.addImm x kk)) = 0x7 ∧ fieldX (encode (.addImm x kk)) = x ∧ fieldKK (encode (.addImm x kk)) = kk
  | .ldReg x y =>
    fieldF (encode (.ldReg x y)) = 0x8 ∧ fieldX (encode (.ldReg x y)) = x ∧ fieldY (encode (.ldReg x y)) = y ∧
      fieldN (encode (.ldReg x y)) = 0x0
  | .orReg x y =>
    fieldF (encode (.orReg x y)) = 0x8 ∧ fieldX (encode (.orReg x y)) = x ∧ fieldY (encode (.orReg x y)) = y ∧
      fieldN (encode (.orReg x y)) = 0x1
  | .andReg x y =>
    fieldF (encode (.andReg x y)) = 0x8 ∧ fieldX (encode (.andReg x y)) = x ∧ fieldY (encode (.andReg x y)) = y ∧
      fieldN (encode (.andReg x y)) = 0x2
  | .xorReg x y =>
    fieldF (encode (.xorReg x y)) = 0x8 ∧ fieldX (encode (.xorReg x y)) = x ∧ fieldY (encode (.xorReg x y)) = y ∧
      fieldN (encode (.xorReg x y)) = 0x3
  | .addReg x y =>
    fieldF (encode (.addReg x y)) = 0x8 ∧ fieldX (encode (.addReg x y)) = x ∧ fieldY (encode (.addReg x y)) = y ∧
      fieldN (encode (.addReg x y)) = 0x4
  | .sub x y =>
    fieldF (encode (.sub x y)) = 0x8 ∧ fieldX (encode (.sub x y)) = x ∧ fieldY (encode (.sub x y)) = y ∧
      fieldN (encode (.sub x y)) = 0x5
  | .shr x y =>
    fieldF (encode (.shr x y)) = 0x8 ∧ fieldX (encode (.shr x y)) = x ∧ fieldY (encode (.shr x y)) = y ∧
      fieldN (encode (.shr x y)) = 0x6
  | .subn x y =>
    fieldF (encode (.subn x y)) = 0x8 ∧ fieldX (encode (.subn x y)) = x ∧ fieldY (encode (.subn x y)) = y ∧
      fieldN (encode (.subn x y)) = 0x7
  | .shl x y =>
    fieldF (encode (.shl x y)) = 0x8 ∧ fieldX (encode (.shl x y)) = x ∧ fieldY (encode (.shl x y)) = y ∧
      fieldN (encode (.shl x y)) = 0xE
  | .sneReg x y n =>
    fieldF (encode (.sneReg x y n)) = 0x9 ∧ fieldX (encode (.sneReg x y n)) = x ∧ fieldY (encode (.sneReg x y n)) = y ∧
      fieldN (encode (.sneReg x y n)) = n
  | .ldI nnn => fieldF (encode (.ldI nnn)) = 0xA ∧ fieldNNN (encode (.ldI nnn)) = nnn
  | .jpV0 nnn => fieldF (encode (.jpV0 nnn)) = 0xB ∧ fieldNNN (encode (.jpV0 nnn)) = nnn
  | .rnd x kk => fieldF (encode (.rnd x kk)) = 0xC ∧ fieldX (encode (.rnd x kk)) = x ∧ fieldKK (encode (.rnd x kk)) = kk
  | .drw x y n =>
    fieldF (encode (.drw x y n)) = 0xD ∧ fieldX (encode (.drw x y n)) = x ∧ fieldY (encode (.drw x y n)) = y ∧
      fieldN (encode (.drw x y n)) = n
  | .skp x => fieldF (encode (.skp x)) = 0xE ∧ fieldX (encode (.skp x)) = x ∧ fieldKK (encode (.skp x)) = 0x9E
  | .sknp x => fieldF (encode (.sknp x)) = 0xE ∧ fieldX (encode (.sknp x)) = x ∧ fieldKK (encode (.sknp x)) = 0xA1
  | .ldVxDt x => fieldF (encode (.ldVxDt x)) = 0xF ∧ fieldX (encode (.ldVxDt x)) = x ∧ fieldKK (encode (.ldVxDt x)) = 0x07
  | .ldVxK x => fieldF (encode (.ldVxK x)) = 0xF ∧ fieldX (encode (.ldVxK x)) = x ∧ fieldKK (encode (.ldVxK x)) = 0x0A
  | .ldDtVx x => fieldF (encode (.ldDtVx x)) = 0xF ∧ fieldX (encode (.ldDtVx x)) = x ∧ fieldKK (encode (.ldDtVx x)) = 0x15
  | .ldStVx x => fieldF (encode (.ldStVx x)) = 0xF ∧ fieldX (encode (.ldStVx x)) = x ∧ fieldKK (encode (.ldStVx x)) = 0x18
  | .addIVx x => fieldF (encode (.addIVx x)) = 0xF ∧ fieldX (encode (.addIVx x)) = x ∧ fieldKK (encode (.addIVx x)) = 0x1E
  | .ldFVx x => fieldF (encode (.ldFVx x)) = 0xF ∧ fieldX (encode (.ldFVx x)) = x ∧ fieldKK (encode (.ldFVx x)) = 0x29
  | .ldBVx x => fieldF (encode (.ldBVx x)) = 0xF ∧ fieldX (encode (.ldBVx x)) = x ∧ fieldKK (encode (.ldBVx x)) = 0x33
  | .ldMemVx x => fieldF (encode (.ldMemVx x)) = 0xF ∧ fieldX (encode (.ldMemVx x)) = x ∧ fieldKK (encode (.ldMemVx x)) = 0x55
  | .ldVxMem x => fieldF (encode (.ldVxMem x)) = 0xF ∧ fieldX (encode (.ldVxMem x)) = x ∧ fieldKK (encode (.ldVxMem x)) = 0x65

theorem sys (nnn : Addr12) : Statement (.sys nnn) := fields_wordNNN _ _

theorem cls : Statement .cls := rfl

theorem ret : Statement .ret := rfl

theorem jp (nnn : Addr12) : Statement (.jp nnn) := fields_wordNNN _ _

theorem call (nnn : Addr12) : Statement (.call nnn) := fields_wordNNN _ _

theorem seImm (x : Nibble) (kk : Byte) : Statement (.seImm x kk) := fields_wordXKK _ _ _

theorem sneImm (x : Nibble) (kk : Byte) : Statement (.sneImm x kk) := fields_wordXKK _ _ _

theorem seReg (x y n : Nibble) : Statement (.seReg x y n) := fields_wordXYN _ _ _ _

theorem ldImm (x : Nibble) (kk : Byte) : Statement (.ldImm x kk) := fields_wordXKK _ _ _

theorem addImm (x : Nibble) (kk : Byte) : Statement (.addImm x kk) := fields_wordXKK _ _ _

theorem ldReg (x y : Nibble) : Statement (.ldReg x y) := fields_wordXYN _ _ _ _

theorem orReg (x y : Nibble) : Statement (.orReg x y) := fields_wordXYN _ _ _ _

theorem andReg (x y : Nibble) : Statement (.andReg x y) := fields_wordXYN _ _ _ _

theorem xorReg (x y : Nibble) : Statement (.xorReg x y) := fields_wordXYN _ _ _ _

theorem addReg (x y : Nibble) : Statement (.addReg x y) := fields_wordXYN _ _ _ _

theorem sub (x y : Nibble) : Statement (.sub x y) := fields_wordXYN _ _ _ _

theorem shr (x y : Nibble) : Statement (.shr x y) := fields_wordXYN _ _ _ _

theorem subn (x y : Nibble) : Statement (.subn x y) := fields_wordXYN _ _ _ _

theorem shl (x y : Nibble) : Statement (.shl x y) := fields_wordXYN _ _ _ _

theorem sneReg (x y n : Nibble) : Statement (.sneReg x y n) := fields_wordXYN _ _ _ _

theorem ldI (nnn : Addr12) : Statement (.ldI nnn) := fields_wordNNN _ _

theorem jpV0 (nnn : Addr12) : Statement (.jpV0 nnn) := fields_wordNNN _ _

theorem rnd (x : Nibble) (kk : Byte) : Statement (.rnd x kk) := fields_wordXKK _ _ _

theorem drw (x y n : Nibble) : Statement (.drw x y n) := fields_wordXYN _ _ _ _

theorem skp (x : Nibble) : Statement (.skp x) := fields_wordXKK _ _ _

theorem sknp (x : Nibble) : Statement (.sknp x) := fields_wordXKK _ _ _

theorem ldVxDt (x : Nibble) : Statement (.ldVxDt x) := fields_wordXKK _ _ _

theorem ldVxK (x : Nibble) : Statement (.ldVxK x) := fields_wordXKK _ _ _

theorem ldDtVx (x : Nibble) : Statement (.ldDtVx x) := fields_wordXKK _ _ _

theorem ldStVx (x : Nibble) : Statement (.ldStVx x) := fields_wordXKK _ _ _

theorem addIVx (x : Nibble) : Statement (.addIVx x) := fields_wordXKK _ _ _

theorem ldFVx (x : Nibble) : Statement (.ldFVx x) := fields_wordXKK _ _ _

theorem ldBVx (x : Nibble) : Statement (.ldBVx x) := fields_wordXKK _ _ _

theorem ldMemVx (x : Nibble) : Statement (.ldMemVx x) := fields_wordXKK _ _ _

theorem ldVxMem (x : Nibble) : Statement (.ldVxMem x) := fields_wordXKK _ _ _

end Sys2Proof.Laws.EncodedFields
end

