-- ==== Sys2Proof/Laws/Timers.lean ====
section
/-! SUPPORT. The timer advance (60_exceptions.md R266). -/

namespace Sys2Proof.Machine

open Sys2Proof

theorem countDown_toNat (t : Byte) (q : Nat) : (countDown t q).toNat = t.toNat - q := by
  have := t.isLt
  rw [countDown, BitVec.toNat_ofNat]
  omega

/-- The number of time-steps in a non-negative time is its integer part in units of 1/60 second. -/
theorem timeSteps_bounds {t : Rat} (h : 0 ≤ t) : (timeSteps t : Rat) / 60 ≤ t ∧ t < (timeSteps t + 1) / 60 := by
  have hf : (0 : Int) ≤ (t * 60).floor := by
    rw [Rat.le_floor_iff]; push_cast; positivity
  have hc : ((timeSteps t : Nat) : Rat) = ((t * 60).floor : Rat) := by
    unfold timeSteps
    exact_mod_cast congrArg (Int.cast (R := Rat)) (Int.toNat_of_nonneg hf)
  have h1 : ((t * 60).floor : Rat) ≤ t * 60 := Rat.floor_le _
  have h2 : t * 60 < (t * 60).floor + 1 := by exact_mod_cast Rat.lt_floor_add_one (t * 60)
  rw [hc]
  constructor <;> linarith

/-- A number of steps that fits is the number of steps. -/
theorem timeSteps_unique {t : Rat} {q : Nat} (h1 : (q : Rat) / 60 ≤ t) (h2 : t < (q + 1) / 60) : timeSteps t = q := by
  have h0 : (0 : Rat) ≤ t := le_trans (by positivity) h1
  obtain ⟨h3, h4⟩ := timeSteps_bounds h0
  have a : (q : Rat) < timeSteps t + 1 := by linarith
  have b : (timeSteps t : Rat) < q + 1 := by linarith
  have a' : q < timeSteps t + 1 := by exact_mod_cast a
  have b' : timeSteps t < q + 1 := by exact_mod_cast b
  omega

/-- After an advance ACC is within one time-step (R29). -/
theorem State.advanceTimers_acc_bounds {s : State} {e : Rat} (h : 0 ≤ s.acc + e) :
    0 ≤ (s.advanceTimers e).acc ∧ (s.advanceTimers e).acc < 1 / 60 := by
  obtain ⟨h1, h2⟩ := timeSteps_bounds h
  rw [State.advanceTimers_acc]
  constructor <;> linarith

end Sys2Proof.Machine
end

