-- ==== Sys2Proof/Laws/Step.lean ====
section
/-! SUPPORT. What one tick can do, said once (40_tick_cycle.md R100). -/

namespace Sys2Proof.Machine

open Sys2Proof

/-! ## The host's input -/

/-- The host's input touches KEYS, elapsed and the pending list only. -/
theorem State.acceptInput_eq (s : State) :
    s.acceptInput = { s with
      keys := s.acceptInput.keys, elapsed := s.acceptInput.elapsed, pending := s.pending.tail } := by
  obtain ⟨v, pc, i, sp, stack, dt, st, acc, disp, redraw, keys, fault, mem, params, elapsed, pending, q, d⟩ := s
  cases pending <;> rfl

/-- A tick's begin touches the host's inputs and REDRAW only. -/
theorem State.beginTick_eq (s : State) :
    s.beginTick = { s with
      keys := s.acceptInput.keys, elapsed := s.acceptInput.elapsed, pending := s.pending.tail, redraw := false } := by
  unfold State.beginTick; rw [State.acceptInput_eq]

@[simp] theorem State.beginTick_v (s : State) : s.beginTick.v = s.v := by rw [State.beginTick_eq]
@[simp] theorem State.beginTick_pc (s : State) : s.beginTick.pc = s.pc := by rw [State.beginTick_eq]
@[simp] theorem State.beginTick_i (s : State) : s.beginTick.i = s.i := by rw [State.beginTick_eq]
@[simp] theorem State.beginTick_sp (s : State) : s.beginTick.sp = s.sp := by rw [State.beginTick_eq]
@[simp] theorem State.beginTick_stack (s : State) : s.beginTick.stack = s.stack := by rw [State.beginTick_eq]
@[simp] theorem State.beginTick_dt (s : State) : s.beginTick.dt = s.dt := by rw [State.beginTick_eq]
@[simp] theorem State.beginTick_st (s : State) : s.beginTick.st = s.st := by rw [State.beginTick_eq]
@[simp] theorem State.beginTick_acc (s : State) : s.beginTick.acc = s.acc := by rw [State.beginTick_eq]
@[simp] theorem State.beginTick_disp (s : State) : s.beginTick.disp = s.disp := by rw [State.beginTick_eq]
@[simp] theorem State.beginTick_redraw (s : State) : s.beginTick.redraw = false := rfl
@[simp] theorem State.beginTick_keys (s : State) : s.beginTick.keys = s.acceptInput.keys := rfl
@[simp] theorem State.beginTick_fault (s : State) : s.beginTick.fault = s.fault := by rw [State.beginTick_eq]
@[simp] theorem State.beginTick_mem (s : State) : s.beginTick.mem = s.mem := by rw [State.beginTick_eq]
@[simp] theorem State.beginTick_params (s : State) : s.beginTick.params = s.params := by rw [State.beginTick_eq]
@[simp] theorem State.beginTick_elapsed (s : State) : s.beginTick.elapsed = s.acceptInput.elapsed := rfl
@[simp] theorem State.beginTick_pending (s : State) : s.beginTick.pending = s.pending.tail := by rw [State.beginTick_eq]
@[simp] theorem State.beginTick_rngQueue (s : State) : s.beginTick.rngQueue = s.rngQueue := by rw [State.beginTick_eq]
@[simp] theorem State.beginTick_rngDraws (s : State) : s.beginTick.rngDraws = s.rngDraws := by rw [State.beginTick_eq]
@[simp] theorem State.beginTick_readByte (s : State) (a : Nat) : s.beginTick.readByte a = s.readByte a := by
  simp [State.readByte]
@[simp] theorem State.beginTick_reg (s : State) (r : Nibble) : s.beginTick.reg r = s.reg r := by simp [State.reg]

/-! ## Fetch (R101) -/

theorem State.fetch_ok {s : State} (h : s.pc.toNat + 1 ≤ 0xFFF) :
    s.fetch = .ok (s.readByte s.pc.toNat, s.readByte (s.pc.toNat + 1)) := by
  unfold State.fetch; rw [firstOutOfRange_eq_none.2 (.inr (by unfold memSize; omega))]

theorem State.fetch_error {s : State} (h : 0xFFF < s.pc.toNat + 1) :
    s.fetch = .error (if 0xFFF < s.pc.toNat then s.pc.toNat else 0x1000) := by
  unfold State.fetch; rw [firstOutOfRange_of_lt (by omega) (by unfold memSize; omega)]

/-! ## The outcomes of a tick -/

theorem step_faulted {s : State} {r : FaultRecord} (h : s.fault = some r) : step s = .fault (.fatal r) := by
  simp [step, tick, h]

theorem step_refused {s : State} (h : s.fault = none) (he : s.acceptInput.elapsed < 0) :
    step s = .refused .negativeElapsed := by simp [step, tick, h, he]

theorem step_runs {s : State} (h : s.fault = none) (he : 0 ≤ s.acceptInput.elapsed) :
    step s = endTickOf s.beginTick.fetchExecute := by simp [step, tick, h, not_lt.2 he]

/-- A record that a tick may leave: it names the PC, and an address exactly where its kind has one. -/
def RecordAt (pc : Word) (r : FaultRecord) : Prop :=
  r.pc = pc ∧ (r.addr.isSome = true ↔ r.kind = .memoryBoundsViolation) ∧ ∀ a, r.addr = some a → 0xFFF < a

/-- Fetching and executing: a record and nothing else, or the decoded instruction within its frame. -/
theorem State.fetchExecute_cases (s : State) :
    (∃ r, RecordAt s.pc r ∧ s.fetchExecute = .next (s.setFault r)) ∨
    ∃ i u, s.pc.toNat + 1 ≤ 0xFFF ∧
      decode s.params.strict59 (s.readByte s.pc.toNat) (s.readByte (s.pc.toNat + 1)) = .ok i ∧
      exec i s = .next u ∧ s.fetchExecute = .next u ∧ Frame (regsWritten i) (ownFields i) s u := by
  by_cases h : s.pc.toNat + 1 ≤ 0xFFF
  · have e : s.fetchExecute = match decode s.params.strict59 (s.readByte s.pc.toNat) (s.readByte (s.pc.toNat + 1)) with
        | .error _ => execInvalid s
        | .ok i => exec i s := by unfold State.fetchExecute; rw [State.fetch_ok h] <;> rfl
    rw [e]
    split
    · exact .inl ⟨_, ⟨rfl, by simp, by simp⟩, rfl⟩
    · rename_i i hd
      obtain ⟨u, hu⟩ := exec_answers_next i s
      rcases exec_raised_or_framed i s u hu with ⟨k, a, -, h1, h2, rfl⟩ | hf
      · exact .inl ⟨_, ⟨rfl, h1, h2⟩, hu⟩
      · exact .inr ⟨i, u, h, hd, hu, hu, hf⟩
  · refine .inl ⟨⟨.memoryBoundsViolation, s.pc, some (if 0xFFF < s.pc.toNat then s.pc.toNat else 0x1000)⟩,
      ⟨rfl, by simp, fun a ha => ?_⟩, ?_⟩
    · cases ha; split <;> omega
    · unfold State.fetchExecute; rw [State.fetch_error (by omega)]; rfl

/-- No instruction writes FAULT within its frame. -/
theorem fault_not_mem_ownFields (i : Instr) : Field.fault ∉ ownFields i := by cases i <;> simp [ownFields]

/-- What a tick that goes on has done: recorded a fault and nothing else, or run the decoded instruction and advanced the
timers. -/
theorem step_next_cases {s t : State} (h : step s = .next t) :
    s.fault = none ∧ 0 ≤ s.acceptInput.elapsed ∧
    ((∃ r, RecordAt s.pc r ∧ t = s.beginTick.setFault r) ∨
    ∃ i u, s.pc.toNat + 1 ≤ 0xFFF ∧
      decode s.params.strict59 (s.readByte s.pc.toNat) (s.readByte (s.pc.toNat + 1)) = .ok i ∧
      exec i s.beginTick = .next u ∧ Frame (regsWritten i) (ownFields i) s.beginTick u ∧ u.fault = none ∧
      t = u.advanceTimers s.acceptInput.elapsed) := by
  match hf : s.fault with
  | some r => rw [step_faulted hf] at h; cases h
  | none =>
    by_cases he : s.acceptInput.elapsed < 0
    · rw [step_refused hf he] at h; cases h
    · rw [step_runs hf (not_lt.1 he)] at h
      refine ⟨rfl, not_lt.1 he, ?_⟩
      rcases s.beginTick.fetchExecute_cases with ⟨r, hr, e⟩ | ⟨i, u, hp, hd, hu, e, hfr⟩ <;> rw [e] at h <;> cases h
      · exact .inl ⟨r, by simpa using hr, rfl⟩
      · have h0 : u.fault = none := by rw [hfr.fault (fault_not_mem_ownFields i), State.beginTick_fault, hf]
        refine .inr ⟨i, u, by simpa using hp, by simpa using hd, hu, hfr, h0, ?_⟩
        simp only [State.endTick, h0, hfr.elapsed, State.beginTick_elapsed]

/-- A tick in a machine that can run goes on. -/
theorem step_goes_on {s : State} (hf : s.fault = none) (he : 0 ≤ s.acceptInput.elapsed) : ∃ t, step s = .next t := by
  rw [step_runs hf he]
  rcases s.beginTick.fetchExecute_cases with ⟨r, -, e⟩ | ⟨i, u, -, -, -, e, -⟩ <;> exact ⟨_, by rw [e]; rfl⟩

/-- A tick whose bytes decode runs that instruction. -/
theorem step_decoded {s : State} {i : Instr} (hf : s.fault = none) (he : 0 ≤ s.acceptInput.elapsed)
    (hp : s.pc.toNat + 1 ≤ 0xFFF)
    (hd : decode s.params.strict59 (s.readByte s.pc.toNat) (s.readByte (s.pc.toNat + 1)) = .ok i) :
    step s = endTickOf (exec i s.beginTick) := by
  rw [step_runs hf he]
  unfold State.fetchExecute
  rw [State.fetch_ok (by simpa using hp)]
  simp [hd]

end Sys2Proof.Machine
end

