-- ==== Sys2Proof/Tests/Slice0.lean ====
section
/-! SUPPORT. Tests of the model on fixed values. The expected results are the spec's: the opcode map of 30_encoding.md, the
worked examples of the rules and the vectors of 95_test_vectors.md. Then a witness for the hypotheses of every obligation
that has some. -/

namespace Sys2Proof.Tests

open Sys2Proof Sys2Proof.Machine

/-! ## Well-formedness: the terms the check refuses -/

theorem test_wf_refuses_sys_0E0 : Instr.wf false (.sys 0x0E0) = false := by decide
theorem test_wf_refuses_sys_0EE : Instr.wf false (.sys 0x0EE) = false := by decide
theorem test_wf_refuses_se_low_nibble : Instr.wf true (.seReg 0x1 0x2 0x1) = false := by decide
theorem test_wf_refuses_sne_low_nibble : Instr.wf true (.sneReg 0x1 0x2 0xF) = false := by decide
theorem test_wf_admits_low_nibble_by_default : Instr.wf false (.seReg 0x1 0x2 0x1) = true := by decide
theorem test_wf_admits_sys_1E0 : Instr.wf true (.sys 0x1E0) = true := by decide

/-! ## Decoding: every constructor from a word written out from R78 -/

theorem test_decode_0123 : decode false 0x01 0x23 = .ok (.sys 0x123) := by decide
theorem test_decode_00E0 : decode false 0x00 0xE0 = .ok .cls := by decide
theorem test_decode_00EE : decode false 0x00 0xEE = .ok .ret := by decide
theorem test_decode_1345 : decode false 0x13 0x45 = .ok (.jp 0x345) := by decide
theorem test_decode_2300 : decode false 0x23 0x00 = .ok (.call 0x300) := by decide
theorem test_decode_3505 : decode false 0x35 0x05 = .ok (.seImm 0x5 0x05) := by decide
theorem test_decode_4506 : decode false 0x45 0x06 = .ok (.sneImm 0x5 0x06) := by decide
theorem test_decode_5120 : decode false 0x51 0x20 = .ok (.seReg 0x1 0x2 0x0) := by decide
theorem test_decode_600A : decode false 0x60 0x0A = .ok (.ldImm 0x0 0x0A) := by decide
theorem test_decode_7302 : decode false 0x73 0x02 = .ok (.addImm 0x3 0x02) := by decide
theorem test_decode_8120 : decode false 0x81 0x20 = .ok (.ldReg 0x1 0x2) := by decide
theorem test_decode_8121 : decode false 0x81 0x21 = .ok (.orReg 0x1 0x2) := by decide
theorem test_decode_8122 : decode false 0x81 0x22 = .ok (.andReg 0x1 0x2) := by decide
theorem test_decode_8123 : decode false 0x81 0x23 = .ok (.xorReg 0x1 0x2) := by decide
theorem test_decode_8014 : decode false 0x80 0x14 = .ok (.addReg 0x0 0x1) := by decide
theorem test_decode_8125 : decode false 0x81 0x25 = .ok (.sub 0x1 0x2) := by decide
theorem test_decode_8406 : decode false 0x84 0x06 = .ok (.shr 0x4 0x0) := by decide
theorem test_decode_8127 : decode false 0x81 0x27 = .ok (.subn 0x1 0x2) := by decide
theorem test_decode_840E : decode false 0x84 0x0E = .ok (.shl 0x4 0x0) := by decide
theorem test_decode_9120 : decode false 0x91 0x20 = .ok (.sneReg 0x1 0x2 0x0) := by decide
theorem test_decode_A123 : decode false 0xA1 0x23 = .ok (.ldI 0x123) := by decide
theorem test_decode_B300 : decode false 0xB3 0x00 = .ok (.jpV0 0x300) := by decide
theorem test_decode_C30F : decode false 0xC3 0x0F = .ok (.rnd 0x3 0x0F) := by decide
theorem test_decode_D123 : decode false 0xD1 0x23 = .ok (.drw 0x1 0x2 0x3) := by decide
theorem test_decode_E09E : decode false 0xE0 0x9E = .ok (.skp 0x0) := by decide
theorem test_decode_E0A1 : decode false 0xE0 0xA1 = .ok (.sknp 0x0) := by decide
theorem test_decode_F107 : decode false 0xF1 0x07 = .ok (.ldVxDt 0x1) := by decide
theorem test_decode_F30A : decode false 0xF3 0x0A = .ok (.ldVxK 0x3) := by decide
theorem test_decode_F015 : decode false 0xF0 0x15 = .ok (.ldDtVx 0x0) := by decide
theorem test_decode_F018 : decode false 0xF0 0x18 = .ok (.ldStVx 0x0) := by decide
theorem test_decode_F21E : decode false 0xF2 0x1E = .ok (.addIVx 0x2) := by decide
theorem test_decode_F329 : decode false 0xF3 0x29 = .ok (.ldFVx 0x3) := by decide
theorem test_decode_F033 : decode false 0xF0 0x33 = .ok (.ldBVx 0x0) := by decide
theorem test_decode_F155 : decode false 0xF1 0x55 = .ok (.ldMemVx 0x1) := by decide
theorem test_decode_F265 : decode false 0xF2 0x65 = .ok (.ldVxMem 0x2) := by decide
theorem test_decode_8008_invalid : decode false 0x80 0x08 = .error (.invalid ⟨.INVALID, 0x0, 0x0, 0x08, 0x008, 0x8⟩) := by
  decide
theorem test_decode_F0FF_invalid : (decode false 0xF0 0xFF).toOption = none := by decide
theorem test_decode_E0A2_invalid : (decode false 0xE0 0xA2).toOption = none := by decide
theorem test_decode_5121_strict : (decode true 0x51 0x21).toOption = none := by decide
theorem test_decode_00EF_is_sys : decode false 0x00 0xEF = .ok (.sys 0x0EF) := by decide

/-- A SUB row of the table, laid out as memory holds it. -/
theorem test_decodeTableWord : decodeTableWord 16 0x8125 = some (.sub 0x1 0x2) := by decide

/-! ## One instruction on a small state -/

/-- The state after reset with some registers set. -/
def regs (l : List (Nibble × Byte)) : State := l.foldl (fun s p => s.setReg p.1 p.2) State.reset

/-- The state an instruction or a tick leaves. -/
def after (r : Result) : State :=
  match r with
  | .next s => s
  | .fault _ => State.reset
  | .refused _ => State.reset

/-- The key array with the listed keys pressed. -/
def pressed (l : List (Fin 16)) : Vector Bool 16 := l.foldl (fun ks (k : Fin 16) => ks.set k.val true k.isLt) (Vector.replicate 16 false)

/-- What the host hands over for one tick with no key pressed. -/
def elapses (e : Rat) : HostInput := ⟨Vector.replicate 16 false, e⟩

-- R120: PC = 0x200, op 0123.
theorem test_sys : (after (exec (.sys 0x123) State.reset)).pc = 0x202 := by decide

-- R121, and the target 0xFFF of vector 2.2.
theorem test_jp : (after (exec (.jp 0x345) State.reset)).pc = 0x345 := by decide

-- R122: STACK[0] = 0x200, SP = 1, PC = 0x300.
theorem test_call :
    (after (exec (.call 0x300) State.reset)).pc = 0x300 ∧ (after (exec (.call 0x300) State.reset)).sp = 1 ∧
      (after (exec (.call 0x300) State.reset)).stack[0]? = some 0x200 := by decide

-- R122: at the capacity.
theorem test_call_overflow : (after (exec (.call 0x300) { State.reset with sp := 16 })).fault =
    some ⟨.stackOverflow, 0x200, none⟩ := by decide

-- R123: SP = 1, STACK[0] = 0x200 gives SP = 0, PC = 0x202.
theorem test_ret : (after (exec .ret { State.reset with pc := 0x300, sp := 1, stack := [0x200] })).pc = 0x202 ∧
    (after (exec .ret { State.reset with pc := 0x300, sp := 1, stack := [0x200] })).sp = 0 := by decide

-- Vector 2.2: RET with an empty stack.
theorem test_ret_underflow : (after (exec .ret State.reset)).fault = some ⟨.stackUnderflow, 0x200, none⟩ := by decide

-- R124: V0 = 0x10, op B300; V0 = 0xFF, nnn = 0xFFF.
theorem test_jpV0 : (after (exec (.jpV0 0x300) (regs [(0x0, 0x10)]))).pc = 0x310 := by decide
theorem test_jpV0_not_reduced : (after (exec (.jpV0 0xFFF) (regs [(0x0, 0xFF)]))).pc = 0x10FE := by decide

-- R140 to R143, their examples.
theorem test_seImm : (after (exec (.seImm 0x5 0x05) (regs [(0x5, 0x05)]))).pc = 0x204 := by decide
theorem test_seImm_no : (after (exec (.seImm 0x5 0x06) (regs [(0x5, 0x05)]))).pc = 0x202 := by decide
theorem test_sneImm : (after (exec (.sneImm 0x5 0x06) (regs [(0x5, 0x05)]))).pc = 0x204 := by decide
theorem test_sneImm_no : (after (exec (.sneImm 0x5 0x05) (regs [(0x5, 0x05)]))).pc = 0x202 := by decide
theorem test_seReg : (after (exec (.seReg 0x1 0x2 0x0) (regs [(0x1, 0x33), (0x2, 0x33)]))).pc = 0x204 := by decide
theorem test_sneReg : (after (exec (.sneReg 0x1 0x2 0x0) (regs [(0x1, 0x01), (0x2, 0x02)]))).pc = 0x204 := by decide

-- R150 to R155, their examples.
theorem test_ldImm : (after (exec (.ldImm 0x0 0x0A) State.reset)).reg 0x0 = 0x0A := by decide
theorem test_addImm : (after (exec (.addImm 0x3 0x02) (regs [(0x3, 0xFF), (0xF, 0x05)]))).reg 0x3 = 0x01 ∧
    (after (exec (.addImm 0x3 0x02) (regs [(0x3, 0xFF), (0xF, 0x05)]))).reg 0xF = 0x05 := by decide
theorem test_ldReg : (after (exec (.ldReg 0x1 0x2) (regs [(0x2, 0x7E)]))).reg 0x1 = 0x7E := by decide
theorem test_orReg : (after (exec (.orReg 0x1 0x2) (regs [(0x1, 0xF0), (0x2, 0x0F)]))).reg 0x1 = 0xFF := by decide
theorem test_andReg : (after (exec (.andReg 0x1 0x2) (regs [(0x1, 0xF0), (0x2, 0x3C)]))).reg 0x1 = 0x30 := by decide
theorem test_xorReg : (after (exec (.xorReg 0x1 0x2) (regs [(0x1, 0xFF), (0x2, 0x0F)]))).reg 0x1 = 0xF0 := by decide

-- R156: V0 = 0xFF, V1 = 0x01; and VF as destination, where the carry stands (R23).
theorem test_addReg : (after (exec (.addReg 0x0 0x1) (regs [(0x0, 0xFF), (0x1, 0x01)]))).reg 0x0 = 0x00 ∧
    (after (exec (.addReg 0x0 0x1) (regs [(0x0, 0xFF), (0x1, 0x01)]))).reg 0xF = 0x01 := by decide
theorem test_addReg_vf : (after (exec (.addReg 0xF 0x1) (regs [(0xF, 0x02), (0x1, 0x03)]))).reg 0xF = 0x00 := by decide

-- R157: V1 = 0x03, V2 = 0x05; vector 2.4: equal operands give no flag.
theorem test_sub : (after (exec (.sub 0x1 0x2) (regs [(0x1, 0x03), (0x2, 0x05)]))).reg 0x1 = 0xFE ∧
    (after (exec (.sub 0x1 0x2) (regs [(0x1, 0x03), (0x2, 0x05)]))).reg 0xF = 0x00 := by decide
theorem test_sub_vf : (after (exec (.sub 0xF 0x1) (regs [(0xF, 0x09), (0x1, 0x02)]))).reg 0xF = 0x01 := by decide

-- R159: V1 = 0x03, V2 = 0x05; vector 2.4: 0x05, 0x03.
theorem test_subn : (after (exec (.subn 0x1 0x2) (regs [(0x1, 0x03), (0x2, 0x05)]))).reg 0x1 = 0x02 ∧
    (after (exec (.subn 0x1 0x2) (regs [(0x1, 0x03), (0x2, 0x05)]))).reg 0xF = 0x01 := by decide
theorem test_subn_borrow : (after (exec (.subn 0x0 0x1) (regs [(0x0, 0x05), (0x1, 0x03)]))).reg 0x0 = 0xFE ∧
    (after (exec (.subn 0x0 0x1) (regs [(0x0, 0x05), (0x1, 0x03)]))).reg 0xF = 0x00 := by decide

-- Vector 2.4: Vy is ignored; the shifted-out bit is written last.
theorem test_shr : (after (exec (.shr 0x0 0x1) (regs [(0x0, 0x04), (0x1, 0xFF)]))).reg 0x0 = 0x02 ∧
    (after (exec (.shr 0x0 0x1) (regs [(0x0, 0x04), (0x1, 0xFF)]))).reg 0xF = 0x00 := by decide
theorem test_shr_vf : (after (exec (.shr 0xF 0x0) (regs [(0xF, 0x03)]))).reg 0xF = 0x01 := by decide
theorem test_shl : (after (exec (.shl 0x0 0x0) (regs [(0x0, 0x81)]))).reg 0x0 = 0x02 ∧
    (after (exec (.shl 0x0 0x0) (regs [(0x0, 0x81)]))).reg 0xF = 0x01 := by decide
theorem test_shl_vf : (after (exec (.shl 0xF 0x0) (regs [(0xF, 0x80)]))).reg 0xF = 0x01 := by decide

-- R180: the source answers 0xA7; vector 2.5: a zero mask still draws.
theorem test_rnd : (after (exec (.rnd 0x3 0x0F) { State.reset with rngQueue := [0xA7, 0x22] })).reg 0x3 = 0x07 ∧
    (after (exec (.rnd 0x3 0x0F) { State.reset with rngQueue := [0xA7, 0x22] })).rngQueue = [0x22] := by decide
theorem test_rnd_zero_mask_draws : (after (exec (.rnd 0x0 0x00) { State.reset with rngQueue := [0xAB] })).reg 0x0 = 0x00 ∧
    (after (exec (.rnd 0x0 0x00) { State.reset with rngQueue := [0xAB] })).rngDraws = 1 := by decide

-- Vector 2.6.
theorem test_ldI : (after (exec (.ldI 0x123) State.reset)).i = 0x0123 := by decide
theorem test_addIVx : (after (exec (.addIVx 0x0) ((regs [(0x0, 0x01)]).setI 0x0FFF))).i = 0x1000 := by decide
theorem test_addIVx_wrap : (after (exec (.addIVx 0x0) ((regs [(0x0, 0x02)]).setI 0xFFFF))).i = 0x0001 := by decide
theorem test_ldFVx : (after (exec (.ldFVx 0x0) (regs [(0x0, 0x1A)]))).i = 0x0032 := by decide
theorem test_ldBVx : (after (exec (.ldBVx 0x0) ((regs [(0x0, 0xEA)]).setI 0x300))).readBytes 0x300 3 = [0x02, 0x03, 0x04] := by
  decide
theorem test_ldBVx_fault : (after (exec (.ldBVx 0x0) ((regs [(0x0, 0xFF)]).setI 0xFFE))).fault =
      some ⟨.memoryBoundsViolation, 0x200, some 0x1000⟩ ∧
    (after (exec (.ldBVx 0x0) ((regs [(0x0, 0xFF)]).setI 0xFFE))).mem = [] := by decide
theorem test_ldMemVx :
    (after (exec (.ldMemVx 0x1) ((regs [(0x0, 0x11), (0x1, 0x22)]).setI 0x400))).readBytes 0x400 3 = [0x11, 0x22, 0x00] := by
  decide
theorem test_ldMemVx_last : (after (exec (.ldMemVx 0x0) ((regs [(0x0, 0x77)]).setI 0xFFF))).readByte 0xFFF = 0x77 := by decide
theorem test_ldVxMem_glyph : (after (exec (.ldVxMem 0x4) State.reset)).v.toList.take 6 =
    [0xF0, 0x90, 0x90, 0x90, 0xF0, 0x00] := by decide
theorem test_ldVxMem_fault : (after (exec (.ldVxMem 0x0) (State.reset.setI 0x1000))).fault =
    some ⟨.memoryBoundsViolation, 0x200, some 0x1000⟩ := by decide

-- R210 to R212, their examples.
theorem test_ldVxDt : (after (exec (.ldVxDt 0x1) (State.reset.setDt 0x2A))).reg 0x1 = 0x2A := by decide
theorem test_ldDtVx : (after (exec (.ldDtVx 0x0) (regs [(0x0, 0x3C)]))).dt = 0x3C := by decide
theorem test_ldStVx : (after (exec (.ldStVx 0x0) (regs [(0x0, 0x05)]))).st = 0x05 := by decide

-- Vector 2.8.
theorem test_skp : (after (exec (.skp 0x1) { regs [(0x1, 0x07)] with keys := pressed [7] })).pc = 0x204 := by decide
theorem test_skp_fault : (after (exec (.skp 0x1) (regs [(0x1, 0x10)]))).fault = some ⟨.keyIndexViolation, 0x200, none⟩ := by
  decide
theorem test_sknp : (after (exec (.sknp 0x1) { regs [(0x1, 0x07)] with keys := pressed [7] })).pc = 0x202 := by decide
theorem test_sknp_up : (after (exec (.sknp 0x1) (regs [(0x1, 0x07)]))).pc = 0x204 := by decide
theorem test_ldVxK : (after (exec (.ldVxK 0x3) { State.reset with keys := pressed [9, 7] })).reg 0x3 = 0x07 ∧
    (after (exec (.ldVxK 0x3) { State.reset with keys := pressed [9, 7] })).pc = 0x202 := by decide
theorem test_ldVxK_hold : (after (exec (.ldVxK 0x3) State.reset)).pc = 0x200 := by decide

-- Vector 2.9.
theorem test_cls : (after (exec .cls { State.reset with disp := Vector.replicate 32 5 })).pixel 0 7 = false ∧
    (after (exec .cls State.reset)).redraw = true := by decide
/-- A state with a sprite at 0x300, V0 and V1 its place, under a policy. -/
def spriteAt (edge : DrawEdge) (x y : Byte) (rows : List Byte) : State :=
  { ((regs [(0x0, x), (0x1, y)]).setI 0x300).writeBytes 0x300 rows with
    params := { defaultParams with drawEdge := edge } }
theorem test_drw_clamp_axis : ((after (exec (.drw 0x0 0x1 0x1) (spriteAt .clampAxis 62 0 [0xFF]))).disp[0] = 3#64 <<< 62) ∧
    (after (exec (.drw 0x0 0x1 0x1) (spriteAt .clampAxis 62 0 [0xFF]))).reg 0xF = 0x01 := by decide
theorem test_drw_old_vf_is_coordinate :
    (after (exec (.drw 0xF 0xF 0x1) ((spriteAt .wrap 0 0 [0xC0]).setReg 0xF 0x03))).pixel 3 3 = true ∧
      (after (exec (.drw 0xF 0xF 0x1) ((spriteAt .wrap 0 0 [0xC0]).setReg 0xF 0x03))).reg 0xF = 0x00 := by decide

/-! ## One tick -/

-- P1, its first tick: bytes 60 0A load 0x0A into V0.
theorem test_step_p1 : (after (step (State.reset.withFetchWord 16 0x600A))).reg 0x0 = 0x0A ∧
    (after (step (State.reset.withFetchWord 16 0x600A))).pc = 0x202 := by decide +kernel
-- R254: op 8008.
theorem test_step_invalid : (after (step (State.reset.withFetchWord 16 0x8008))).fault = some ⟨.unknownOpcode, 0x200, none⟩ := by
  decide +kernel
-- Vector 2.7: DT = 1, F007, elapsed 2/60: V0 = 1, DT = 0, ACC = 0.
theorem test_step_timers :
    (after (tickWith (elapses (2 / 60)) ((State.reset.withFetchWord 16 0xF007).setDt 0x01))).reg 0x0 = 0x01 ∧
      (after (tickWith (elapses (2 / 60)) ((State.reset.withFetchWord 16 0xF007).setDt 0x01))).dt = 0x00 ∧
      (after (tickWith (elapses (2 / 60)) ((State.reset.withFetchWord 16 0xF007).setDt 0x01))).acc = 0 := by decide +kernel
-- Vector 2.7: DT = 3, 1/61 second: no step.
theorem test_step_timers_short :
    (after (tickWith (elapses (1 / 61)) ((State.reset.withFetchWord 16 0x1200).setDt 0x03))).dt = 0x03 ∧
      (after (tickWith (elapses (1 / 61)) ((State.reset.withFetchWord 16 0x1200).setDt 0x03))).acc = 1 / 61 := by
  decide +kernel
-- Vector 2.7: a faulting tick does not advance the timers.
theorem test_step_fault_keeps_timers :
    (after (tickWith (elapses 1) ((State.reset.withFetchWord 16 0x00EE).setDt 0x05))).dt = 0x05 := by decide +kernel
-- R101: a fetch at 0xFFF.
theorem test_step_fetch_fault : (after (step (State.reset.setPc 0xFFF))).fault =
    some ⟨.memoryBoundsViolation, 0xFFF, some 0x1000⟩ := by decide +kernel
-- 93_implementation_defined.md: a negative elapsed is refused.
theorem test_step_refuses_negative : tickWith (elapses (-1)) State.reset = .refused .negativeElapsed :=
  step_refused rfl (by decide +kernel)
-- The word of the host's probe is fetched where the step fetches, even from a state that could not fetch there.
theorem test_withFetchWord : (after (step ((State.reset.setPc 0xFFF).withFetchWord 16 0x6112))).reg 0x1 = 0x12 := by
  decide +kernel
-- R274: the debug snapshot shows the record of the instruction at PC.
theorem test_debug : (State.debug (State.reset.withFetchWord 16 0x8125)).decoded = some ⟨.SUB, 0x1, 0x2, 0x25, 0x125, 0x5⟩ := by decide

/-! ## Witnesses: the hypotheses of each obligation that has some, met together, at the boundaries of its clauses -/

/-- Reset with a word where the next step fetches. -/
def running (w : Nat) : State := State.reset.withFetchWord 16 w

theorem witness_DecodeOfEncode : Instr.wf true (.seReg 0x1 0x2 0x0) = true ∧ Instr.wf false (.seReg 0x1 0x2 0xF) = true ∧
    Instr.wf true (.sys 0xFFF) = true := by decide

theorem witness_EncodeOfDecode : decode true 0x00 0xEE = .ok .ret ∧ decode false 0x5F 0xFF = .ok (.seReg 0xF 0xF 0xF) := by
  decide

/-- Step: at reset, and with PC at the last word of memory. -/
theorem witness_StepRunsTheDecodedInstruction :
    ∀ s ∈ [running 0x8014, (State.reset.setPc 0xFFE).withFetchWord 16 0x8014],
      s.fault = none ∧ 0 ≤ s.acceptInput.elapsed ∧ s.pc.toNat + 1 ≤ 0xFFF ∧
        decode s.params.strict59 (s.readByte s.pc.toNat) (s.readByte (s.pc.toNat + 1)) = .ok (.addReg 0x0 0x1) := by
  decide +kernel

theorem witness_TickAcceptsTheHostsInput : State.reset.pending = [] ∧
    (State.reset.supply [elapses 1]).pending = elapses 1 :: [] := ⟨rfl, rfl⟩

theorem witness_InstructionWordIsBigEndian : (State.reset.setPc 0xFFE).pc.toNat + 1 ≤ 0xFFF ∧
    (State.reset.setPc 0x201).pc.toNat + 1 ≤ 0xFFF := by decide

/-- Fetch out of memory: PC = 0xFFF, where PC + 1 is the bad address, and PC = 0x1000, where PC is. -/
theorem witness_FetchOutOfMemoryFaults : ∀ s ∈ [State.reset.setPc 0xFFF, State.reset.setPc 0x1000],
    s.fault = none ∧ 0 ≤ s.acceptInput.elapsed ∧ 0xFFF < s.pc.toNat + 1 := by decide +kernel

theorem witness_InvalidWordRaisesUnknownOpcode_invalid : (running 0x8008).fault = none ∧ 0 ≤ (running 0x8008).acceptInput.elapsed ∧
    (running 0x8008).pc.toNat + 1 ≤ 0xFFF ∧
    decode (running 0x8008).params.strict59 ((running 0x8008).readByte (running 0x8008).pc.toNat)
      ((running 0x8008).readByte ((running 0x8008).pc.toNat + 1)) =
        .error (.invalid ⟨.INVALID, 0x0, 0x0, 0x08, 0x008, 0x8⟩) := by decide +kernel

/-- Each of the six skips at PC = 0x200 in a state where its condition holds: V0 = V1 = 0, V2 = 1, key 1 alone down. -/
def skipping (w : Nat) : State := (({ regs [(0x2, 0x01)] with keys := pressed [1] } : State).withFetchWord 16 w)

theorem skipping_runs : ∀ w ∈ [0x3000, 0x4001, 0x5010, 0x9020, 0xE29E, 0xE0A1],
    (skipping w).fault = none ∧ 0 ≤ (skipping w).acceptInput.elapsed ∧ (skipping w).pc.toNat + 1 ≤ 0xFFF := by
  decide +kernel

theorem skipping_decodes :
    ∀ p ∈ [(0x3000, Instr.seImm 0x0 0x00), (0x4001, .sneImm 0x0 0x01), (0x5010, .seReg 0x0 0x1 0x0),
        (0x9020, .sneReg 0x0 0x2 0x0), (0xE29E, .skp 0x2), (0xE0A1, .sknp 0x0)],
      decode (skipping p.1).params.strict59 ((skipping p.1).readByte (skipping p.1).pc.toNat)
        ((skipping p.1).readByte ((skipping p.1).pc.toNat + 1)) = .ok p.2 := by decide

theorem witness_InvalidWordRaisesUnknownOpcode_skipped :
    skipHolds (skipping 0x3000).acceptInput (.seImm 0x0 0x00) ∧
    skipHolds (skipping 0x4001).acceptInput (.sneImm 0x0 0x01) ∧
    skipHolds (skipping 0x5010).acceptInput (.seReg 0x0 0x1 0x0) ∧
    skipHolds (skipping 0x9020).acceptInput (.sneReg 0x0 0x2 0x0) ∧
    skipHolds (skipping 0xE29E).acceptInput (.skp 0x2) ∧ skipHolds (skipping 0xE0A1).acceptInput (.sknp 0x0) :=
  ⟨rfl, by unfold skipHolds; decide, rfl, by unfold skipHolds; decide, ⟨0x1, by decide, by decide⟩,
    ⟨0x0, by decide, by decide⟩⟩

theorem witness_FaultedMachineStaysFaulted :
    (State.reset.setFault ⟨.stackUnderflow, 0x200, none⟩).fault = some ⟨.stackUnderflow, 0x200, none⟩ := rfl

/-- Each of the three outcomes occurs. -/
theorem witness_OutcomeOfATick : (∃ t, step State.reset = .next t) ∧
    (∃ f, step (State.reset.setFault ⟨.stackUnderflow, 0x200, none⟩) = .fault f) ∧
    ∃ q, step (State.reset.supply [elapses (-1)]) = .refused q :=
  ⟨step_goes_on rfl (by decide +kernel), ⟨_, step_faulted rfl⟩, ⟨_, step_refused rfl (by decide +kernel)⟩⟩

/-- A tick of RET with an empty stack leaves a fault. -/
theorem witness_FaultsArePrecise : ∃ t r, step (running 0x00EE) = .next t ∧ t.fault = some r :=
  ⟨_, ⟨.stackUnderflow, 0x200, none⟩, step_decoded (i := .ret) rfl (by decide +kernel) (by decide) (by decide), rfl⟩

theorem witness_EachInstructionRaisesOneKindAtMost : State.reset.fault = none ∧ ∃ t r, exec .ret State.reset = .next t ∧
    t.fault = some r := ⟨rfl, _, _, rfl, rfl⟩

theorem witness_PcActionOfEveryInstruction : State.reset.fault = none ∧
    ∃ t, exec (.jpV0 0xFFF) State.reset = .next t ∧ t.fault = none := ⟨rfl, _, rfl, rfl⟩

/-- The RET arm: an entry held, and no fault. -/
theorem witness_PcActionOfEveryInstruction_ret : ({ State.reset with sp := 1 } : State).stack[1 - 1]? = some 0 ∧
    (after (exec .ret { State.reset with sp := 1 })).fault = none := by decide

/-- Images of the largest size, one byte more, and none. -/
theorem witness_ConstructionFromAnImage : (List.replicate 3584 (0xAA : Byte)).length ≤ 3584 ∧
    3584 < (List.replicate 3585 (0xAA : Byte)).length ∧ ([] : List Byte).length ≤ 3584 := by
  simp only [List.length_replicate, List.length_nil]
  omega

theorem witness_InvariantAtConstruction : ∃ s, State.construct defaultParams [0x60, 0x0A] = some s := ⟨_, rfl⟩

/-- A state that is not reset and meets the invariant, with one stack entry held. -/
def calledOnce : State := { State.reset with pc := 0x300, sp := 1, stack := 0x200 :: List.replicate 15 0 }

theorem calledOnce_inv : calledOnce.Inv where
  memory := rfl
  stackLength := rfl
  depth := by decide
  returnSites k w hk hw := by
    obtain rfl : k = 0 := by have : calledOnce.sp = 1 := rfl; omega
    cases hw; decide
  pcRange := by decide
  accNonneg := by decide +kernel
  accBound := by decide +kernel
  faultPc r h := by cases h
  faultAddr r h := by cases h
  faultAddrRange r a h := by cases h

theorem witness_StepKeepsTheInvariant : calledOnce.Inv ∧ ∃ t, step calledOnce = .next t :=
  ⟨calledOnce_inv, step_goes_on rfl (by decide +kernel)⟩

theorem witness_ReadReturnsTheByteLastWritten :
    Memory.wf State.reset.params.font State.reset.mem = true ∧ State.reset.mem = [] := ⟨rfl, rfl⟩

theorem witness_EqualMemoriesAreEqualData :
    Memory.wf defaultFont [(0x000, 0x01), (0xFFF, 0x02)] = true ∧
      ∀ a, memRead defaultFont [(0x000, 0x01), (0xFFF, 0x02)] a = memRead defaultFont [(0x000, 0x01), (0xFFF, 0x02)] a :=
  ⟨by decide, fun _ => rfl⟩

/-- Out of range from the second address on, from the first on, and nowhere. -/
theorem witness_BoundsCheckGivesTheLeastBadAddress : firstOutOfRange 0xFFF 2 = some 0x1000 ∧
    firstOutOfRange 0x1234 3 = some 0x1234 ∧ firstOutOfRange 0xFFE 2 = none ∧ firstOutOfRange 0x2000 0 = none := by decide

theorem witness_EveryInstructionKeepsItsFrame : Memory.wf State.reset.params.font State.reset.mem = true ∧
    ∃ t, exec (.ldBVx 0x0) (State.reset.setI 0xFFD) = .next t := ⟨rfl, exec_answers_next _ _⟩

theorem witness_ticks_go_on : ∃ t, step (running 0x00E0) = .next t := step_goes_on rfl (by decide +kernel)

theorem witness_SoundTimeAndRedrawAreInvisible : ∃ t, exec (.ldVxDt 0x1) State.reset = .next t := exec_answers_next _ _

/-- Another stack that agrees below SP and nowhere else. -/
theorem witness_UnpushedEntriesAreUnobservable : calledOnce.Inv ∧
    (0x200 :: List.replicate 15 (0x999 : Word)).length = calledOnce.stack.length ∧
    (∀ k, k < calledOnce.sp → (0x200 :: List.replicate 15 (0x999 : Word))[k]? = calledOnce.stack[k]?) ∧
    ∃ t, step calledOnce = .next t :=
  ⟨calledOnce_inv, rfl, by decide, step_goes_on rfl (by decide +kernel)⟩

theorem witness_CallPushesItsOwnAddress : ({ State.reset with sp := 15 } : State).sp < State.reset.params.stackDepth ∧
    State.reset.stack.length = State.reset.params.stackDepth ∧
    State.reset.params.stackDepth ≤ ({ State.reset with sp := 16 } : State).sp := by decide

theorem witness_ReturnPopsAndAddsTwo : 0 < calledOnce.sp ∧ calledOnce.stack[calledOnce.sp - 1]? = some 0x200 ∧
    State.reset.sp = 0 := by decide

theorem witness_ReturnComesBackAfterTheCall : State.reset.sp < State.reset.params.stackDepth ∧
    State.reset.stack.length = State.reset.params.stackDepth ∧
    ∃ t u : State, exec (.call 0x300) State.reset = .next t ∧ u.sp = t.sp ∧ u.stack = t.stack :=
  ⟨by decide, by decide, _, _, rfl, rfl, rfl⟩

theorem witness_register_numbers : (0x0 : Nibble) ≠ 0xF ∧ (0xE : Nibble) ≠ 0xF := by decide

theorem witness_FlagWritesOverwriteVf_flags : State.reset.fault = none ∧
    (∀ i ∈ [Instr.addReg 0xF 0xF, .sub 0xF 0x0, .subn 0xF 0x0, .shr 0xF 0x0, .shl 0xF 0x0, .drw 0x0 0x0 0xF],
      (after (exec i State.reset)).fault = none) := by decide

theorem witness_FlagWritesOverwriteVf_operands : 0xF ∉ regsRead (.addReg 0x0 0xE) ∧ 0xF ∉ regsRead (.ldMemVx 0xE) ∧
    0xF ∈ regsRead (.ldMemVx 0xF) := by decide

theorem witness_RandomByteUnderAMask : ({ State.reset with rngQueue := [0xA7] } : State).rngQueue = 0xA7 :: [] ∧
    State.reset.rngQueue = [] := ⟨rfl, rfl⟩

/-- The last address at which the three digits fit, and the first at which they do not. -/
theorem witness_BcdStoresThreeDigits : Memory.wf State.reset.params.font State.reset.mem = true ∧
    (State.reset.setI 0xFFD).i.toNat + 2 ≤ 0xFFF ∧ 0xFFF < (State.reset.setI 0xFFE).i.toNat + 2 := by decide

theorem witness_StoreOfARegisterRange : Memory.wf State.reset.params.font State.reset.mem = true ∧
    (State.reset.setI 0xFF0).i.toNat + (0xF : Nibble).toNat ≤ 0xFFF ∧ (0xF : Nibble).toNat ≤ (0xF : Nibble).toNat ∧
    0xFFF < (State.reset.setI 0xFF1).i.toNat + (0xF : Nibble).toNat := by decide

theorem witness_LoadOfARegisterRange : (State.reset.setI 0xFFF).i.toNat + (0x0 : Nibble).toNat ≤ 0xFFF ∧
    (0x0 : Nibble).toNat < (0x1 : Nibble).toNat ∧ 0xFFF < (State.reset.setI 0x1000).i.toNat + (0x0 : Nibble).toNat := by decide

theorem witness_LoadRestoresWhatStoreSaved : Memory.wf State.reset.params.font State.reset.mem = true ∧
    State.reset.i.toNat + (0xF : Nibble).toNat ≤ 0xFFF ∧
    ∃ t u : State, exec (.ldMemVx 0xF) State.reset = .next t ∧ u.i = t.i ∧
      ∀ k, k ≤ (0xF : Nibble).toNat → u.readByte (t.i.toNat + k) = t.readByte (t.i.toNat + k) :=
  ⟨rfl, by decide, _, _, rfl, rfl, fun _ _ => rfl⟩

theorem witness_TimersAdvanceAsTheLoopDoes : 0 ≤ State.reset.acc + 1 / 2 ∧ State.reset.acc + 1 / 2 < ((30 : Nat) + 1) / 60 := by
  decide +kernel

theorem witness_TimersDependOnTotalTimeOnly : 0 ≤ State.reset.acc ∧ (0 : Rat) ≤ 1 / 120 ∧ (0 : Rat) ≤ 0 := by decide +kernel

theorem witness_WaitingTickAdvancesTheTimers : (running 0xF30A).fault = none ∧ 0 ≤ (running 0xF30A).acceptInput.elapsed ∧
    (running 0xF30A).pc.toNat + 1 ≤ 0xFFF ∧
    decode (running 0xF30A).params.strict59 ((running 0xF30A).readByte (running 0xF30A).pc.toNat)
      ((running 0xF30A).readByte ((running 0xF30A).pc.toNat + 1)) = .ok (.ldVxK 0x3) ∧
    (∀ k, (running 0xF30A).acceptInput.keyDown k = false) := by decide +kernel

/-- The least and the greatest key number, and the first number that is none. -/
theorem witness_SkipsOnKeys : ((regs [(0x1, 0x00)]).reg 0x1).toNat = (0x0 : Nibble).toNat ∧
    ((regs [(0x1, 0x0F)]).reg 0x1).toNat = (0xF : Nibble).toNat ∧ 0xF < ((regs [(0x1, 0x10)]).reg 0x1).toNat := by decide

/-- The least key alone, the greatest key alone, and none. -/
theorem witness_KeyWait :
    (({ State.reset with keys := pressed [0] } : State).keyDown 0x0 = true) ∧
    (({ State.reset with keys := pressed [15] } : State).keyDown 0xF = true ∧
      ∀ j : Nibble, j.toNat < (0xF : Nibble).toNat → ({ State.reset with keys := pressed [15] } : State).keyDown j = false) ∧
    ∀ k, State.reset.keyDown k = false := by decide

/-- Both disjuncts at their edges: a row at the last address, and no row at an address outside memory. -/
theorem witness_DrawTogglesCellsAndReportsCollision :
    (State.reset.setI 0xFFF).i.toNat + (0x1 : Nibble).toNat ≤ 0x1000 ∧ (0x0 : Nibble).toNat = 0 := by decide

theorem witness_DrawOutOfMemoryFaults : 0 < (0x2 : Nibble).toNat ∧
    0x1000 < (State.reset.setI 0xFFF).i.toNat + (0x2 : Nibble).toNat := by decide

theorem witness_DrawingOrderDoesNotMatter : [62, 63, 63].Perm [63, 62, 63] := by decide

/-- The edges of the clauses: (63, 31) inside, then right of the grid, below it, and both. -/
theorem witness_PlacementOfSpritePixels : spriteCell .clampAxis 63 31 = 2047 ∧ spriteCell .clampAxis 64 0 = 63 ∧
    spriteCell .clampAxis 0 32 = 1984 ∧ spriteCell .clampAxis 64 32 = 2047 ∧ spriteCell .clampLinear 64 31 = 2047 ∧
    spriteCell .clampLinear 64 0 = 64 ∧ spriteCell .wrap 64 32 = 0 := by decide

end Sys2Proof.Tests
end

section
/-! PROOFS. The call stack (10_state.md R26, R27): what CALL answers where the stack has room and RET where it holds an
entry, and that the two undo each other. -/

namespace Sys2Proof.Machine

open Sys2Proof

/-- A pop writes SP only. -/
theorem Frame.pop (s : State) : Frame [] [.stack] s s.pop := by
  constructor
  case depth => exact fun h => absurd (List.mem_singleton_self _) h
  all_goals (intros; rfl)

theorem exec_call_of_room {nnn : Addr12} {s : State} (h : s.sp < s.params.stackDepth) :
    exec (.call nnn) s = .next ((s.push s.pc).setPc (zextNNN nnn)) := by
  simp [exec, execCall, h, State.finish_eq, nextPc]

theorem exec_ret_of_entry {s : State} {w : Word} (h : 0 < s.sp) (hw : s.stack[s.sp - 1]? = some w) :
    exec .ret s = .next (s.pop.setPc (w + 2)) := by
  simp [exec, execRet, h, State.finish_eq, nextPc, State.top, hw]

/-- Settles O35: the entry CALL pushes at SP is the one RET takes, and SP goes up and down by one. -/
theorem returnComesBackAfterTheCall : Obligations.ReturnComesBackAfterTheCall := by
  unfold Obligations.ReturnComesBackAfterTheCall
  intro nnn s t u hroom hlen hcall hsp hstack
  rw [exec_call_of_room hroom] at hcall
  cases hcall
  have hsp' : u.sp = s.sp + 1 := hsp
  have hentry : (s.stack.set s.sp s.pc)[s.sp]? = some s.pc := List.getElem?_set_self (hlen ▸ hroom)
  have htop : u.stack[u.sp - 1]? = some s.pc := by
    rw [hstack, hsp']
    exact hentry
  exact ⟨hentry, _, exec_ret_of_entry (by omega) htop, rfl, by simp [hsp'], (Frame.pop u).withPc _⟩

end Sys2Proof.Machine
end

section
/-! PROOFS. VF (10_state.md R22, R23): the flag an instruction writes, what keeps VF, and that an instruction which does
not name VF as an operand runs alike whatever VF holds. -/

namespace Sys2Proof.Machine

open Sys2Proof

/-! ## The flag written -/

theorem shiftRightFlag_eq : ∀ a : Byte, shiftRightFlag a = 0x00 ∨ shiftRightFlag a = 0x01 := by decide

/-- The flag is written after the result, so it stands whatever the result's register is (D6). -/
theorem reg_vf_of_putResultFlag {s t : State} {x : Nibble} {b f : Byte} (h : s.putResultFlag x b f = .next t) :
    t.reg vf = f := by
  cases h
  simp

/-- A DRW that raises nothing leaves its collision flag in VF (48_display.md R231). -/
theorem reg_vf_of_drw {s t : State} {x y n : Nibble} (h : exec (.drw x y n) s = .next t) (hf : t.fault = none) :
    t.reg vf = flag (s.drawn x y n).2 := by
  rcases withRange_raised_or (i := .drw x y n) rfl h with ⟨kind, addr, -, -, -, rfl⟩ | ⟨rfl, -⟩
  · cases hf
  · simp

/-! ## VF unwritten -/

/-- A register an instruction does not write keeps its value, whether or not the instruction raises its fault. -/
theorem exec_keeps_reg {i : Instr} {s t : State} {r : Nibble} (h : exec i s = .next t) (hr : r ∉ regsWritten i) :
    t.reg r = s.reg r := by
  rcases exec_raised_or_framed i s t h with ⟨kind, addr, -, -, -, rfl⟩ | hframe
  · rfl
  · exact hframe.regs r hr

/-! ## Two writes of registers -/

theorem State.setReg_setReg_self (s : State) (r : Nibble) (a b : Byte) :
    (s.setReg r a).setReg r b = s.setReg r b := by
  simp [State.setReg]

theorem State.setReg_comm (s : State) {r q : Nibble} (a b : Byte) (h : r ≠ q) :
    (s.setReg r a).setReg q b = (s.setReg q b).setReg r a := by
  have hne : r.toNat ≠ q.toNat := fun e => h (BitVec.eq_of_toNat_eq e)
  simp [State.setReg, Vector.set_comm _ _ hne]

/-- A last write of a register hides an earlier one, whatever register was written in between. -/
theorem State.setReg_absorbs (s : State) (r x : Nibble) (a b f : Byte) :
    ((s.setReg r a).setReg x b).setReg r f = (s.setReg x b).setReg r f := by
  by_cases h : r = x
  · subst h
    simp [State.setReg_setReg_self]
  · rw [State.setReg_comm s a b h, State.setReg_setReg_self]

/-! ## Two runs that differ in VF -/

/-- `r'` is what `r` is, or, where VF is in `r` what it was in `s`, `r` with `b` in VF instead. -/
def VfBlind (b : Byte) (s : State) (r r' : Result) : Prop :=
  ∃ t, r = .next t ∧ (r' = .next t ∨ t.reg vf = s.reg vf ∧ r' = .next (t.setReg vf b))

section VfBlind

variable {b : Byte} {s : State}

theorem VfBlind.overwritten (t : State) : VfBlind b s (.next t) (.next t) := ⟨t, rfl, .inl rfl⟩

theorem VfBlind.kept {t : State} (h : t.reg vf = s.reg vf) : VfBlind b s (.next t) (.next (t.setReg vf b)) :=
  ⟨t, rfl, .inr ⟨h, rfl⟩⟩

theorem VfBlind.raise (kind : FaultKind) (addr : Option Nat) :
    VfBlind b s (s.raise kind addr) ((s.setReg vf b).raise kind addr) := .kept rfl

theorem VfBlind.skipIf (c : Bool) : VfBlind b s (s.skipIf c) ((s.setReg vf b).skipIf c) := .kept rfl

theorem VfBlind.putResult (x : Nibble) (v : Byte) :
    VfBlind b s (s.putResult x v) ((s.setReg vf b).putResult x v) := by
  unfold State.putResult
  by_cases h : vf = x
  · subst h
    rw [State.setReg_setReg_self]
    exact .overwritten _
  · rw [State.setReg_comm s b v h]
    exact .kept (State.reg_setReg_ne s v h)

theorem VfBlind.putResultFlag (x : Nibble) (v f : Byte) :
    VfBlind b s (s.putResultFlag x v f) ((s.setReg vf b).putResultFlag x v f) := by
  unfold State.putResultFlag
  rw [State.setReg_absorbs]
  exact .overwritten _

/-- The bounds check looks at I only. -/
theorem VfBlind.withRange (n : Nat) {k k' : Result} (h : VfBlind b s k k') :
    VfBlind b s (s.withRange n k) ((s.setReg vf b).withRange n k') := by
  have hi : (s.setReg vf b).iAddr = s.iAddr := rfl
  unfold State.withRange
  rw [hi]
  split
  · exact .raise _ _
  · exact h

theorem VfBlind.ite {c : Prop} [Decidable c] {k k' l l' : Result} (hk : VfBlind b s k k') (hl : VfBlind b s l l') :
    VfBlind b s (if c then k else l) (if c then k' else l') := by
  split
  · exact hk
  · exact hl

/-- States that differ in the general registers at most are equal where every register is. -/
theorem State.eq_of_regs {t u : State} (he : u = { t with v := u.v }) (h : ∀ r, u.reg r = t.reg r) : u = t := by
  have hv : u.v = t.v := Vector.ext fun k hk => by
    simpa [State.reg, Nat.mod_eq_of_lt hk] using h (BitVec.ofNat 4 k)
  rw [he, hv]

/-- A range load writes V only, so that two runs from states that differ in V differ in V. -/
theorem State.loadRegs_setReg_eq (a : Nat) (x r : Nibble) :
    (s.setReg r b).loadRegs a x = { s.loadRegs a x with v := ((s.setReg r b).loadRegs a x).v } := by
  obtain ⟨-, v, hv⟩ := State.loadRegs_spec s a x
  obtain ⟨-, v', hv'⟩ := State.loadRegs_spec (s.setReg r b) a x
  rw [hv, hv']
  rfl

/-- A range load overwrites VF where the range is all of V0..VF, and keeps it elsewhere. -/
theorem VfBlind.loadRegs (a : Nat) (x : Nibble) :
    VfBlind b s ((s.loadRegs a x).finish .next) (((s.setReg vf b).loadRegs a x).finish .next) := by
  obtain ⟨hreg, -⟩ := State.loadRegs_spec s a x
  obtain ⟨hreg', -⟩ := State.loadRegs_spec (s.setReg vf b) a x
  by_cases hx : vf.toNat ≤ x.toNat
  · have heq : (s.setReg vf b).loadRegs a x = s.loadRegs a x :=
      State.eq_of_regs (State.loadRegs_setReg_eq a x vf) fun r => by
        have hr : r.toNat ≤ x.toNat := by have := r.isLt; have : vf.toNat = 15 := rfl; omega
        rw [hreg, hreg', if_pos hr, if_pos hr, State.setReg_readByte]
    rw [heq]
    exact .overwritten _
  · have heq : (s.setReg vf b).loadRegs a x = (s.loadRegs a x).setReg vf b :=
      State.eq_of_regs (State.loadRegs_setReg_eq a x vf) fun r => by
        rw [hreg', State.reg_setReg, State.reg_setReg, hreg, State.setReg_readByte]
        by_cases hr : r = vf
        · rw [hr, if_neg hx, if_pos rfl, if_pos rfl]
        · rw [if_neg hr, if_neg hr]
    rw [heq]
    exact .kept ((hreg vf).trans (if_neg hx))

/-- An instruction that does not name VF as an operand runs alike whatever VF holds. -/
theorem exec_vfBlind_of_not_read {i : Instr} (h : vf ∉ regsRead i) : VfBlind b s (exec i s) (exec i (s.setReg vf b)) := by
  have hread : ∀ r ∈ regsRead i, (s.setReg vf b).reg r = s.reg r := fun r hr =>
    State.reg_setReg_ne s b (ne_of_mem_of_not_mem hr h)
  cases i with
  | sys | cls | jp | ldI => exact .kept rfl
  | call | ret => exact .ite (.kept rfl) (.raise _ _)
  | jpV0 | ldDtVx | ldStVx | addIVx | ldFVx =>
    simp only [exec, execJpV0, execLdDtVx, execLdStVx, execAddIVx, execLdFVx, hread _ (List.mem_singleton_self _)]
    exact .kept rfl
  | seImm | sneImm =>
    simp only [exec, execSeImm, execSneImm, hread _ (List.mem_singleton_self _)]
    exact .skipIf _
  | seReg x y | sneReg x y =>
    simp only [exec, execSeReg, execSneReg, hread x (by simp [regsRead]), hread y (by simp [regsRead])]
    exact .skipIf _
  | skp x | sknp x =>
    simp only [exec, execSkp, execSknp, hread x (by simp [regsRead])]
    cases keyIndex (s.reg x) with
    | some k => exact .skipIf _
    | none => exact .raise _ _
  | ldImm | ldVxDt => exact .putResult _ _
  | rnd x kk => exact VfBlind.putResult (s := s.afterDraw) x _
  | ldVxK x =>
    have hkey : (s.setReg vf b).leastKey = s.leastKey := rfl
    simp only [exec, execLdVxK, hkey]
    cases s.leastKey with
    | some k => exact .putResult x _
    | none => exact .kept rfl
  | addImm | ldReg =>
    simp only [exec, execAddImm, execLdReg, hread _ (List.mem_singleton_self _)]
    exact .putResult _ _
  | orReg x y | andReg x y | xorReg x y =>
    simp only [exec, execOr, execAnd, execXor, hread x (by simp [regsRead]), hread y (by simp [regsRead])]
    exact .putResult _ _
  | addReg x y | sub x y | subn x y =>
    simp only [exec, execAddReg, execSub, execSubn, hread x (by simp [regsRead]), hread y (by simp [regsRead])]
    exact .putResultFlag _ _ _
  | shr | shl =>
    simp only [exec, execShr, execShl, hread _ (List.mem_singleton_self _)]
    exact .putResultFlag _ _ _
  | drw x y n =>
    have hdrawn : (s.setReg vf b).drawn x y n = s.drawn x y n := by
      unfold State.drawn
      rw [hread x (by simp [regsRead]), hread y (by simp [regsRead])]
      rfl
    have hflag (d : Display) (f : Byte) : ((s.setReg vf b).setDisp d).setReg vf f = (s.setDisp d).setReg vf f :=
      State.setReg_setReg_self (s.setDisp d) vf b f
    simp only [exec, execDrw, hdrawn, hflag]
    exact .withRange _ (.overwritten _)
  | ldBVx =>
    simp only [exec, execLdBVx, hread _ (List.mem_singleton_self _)]
    exact .withRange _ (.kept rfl)
  | ldMemVx x =>
    have hregs : (s.setReg vf b).regsUpTo x = s.regsUpTo x :=
      List.map_congr_left fun k hk => hread _ (List.mem_map_of_mem hk)
    simp only [exec, execLdMemVx, hregs]
    exact .withRange _ (.kept rfl)
  | ldVxMem x => exact .withRange _ (.loadRegs _ x)

/-- The relation, field by field and register by register. -/
theorem VfBlind.spec {t : State} {r' : Result} (h : VfBlind b s (.next t) r') :
    ∃ t', r' = .next t' ∧ t' = { t with v := t'.v } ∧ (∀ r, r ≠ vf → t'.reg r = t.reg r) ∧
      (t'.reg vf = t.reg vf ∨ t.reg vf = s.reg vf ∧ t'.reg vf = b) := by
  obtain ⟨u, hu, hr'⟩ := h
  cases hu
  rcases hr' with rfl | ⟨hkept, rfl⟩
  · exact ⟨t, rfl, rfl, fun _ _ => rfl, .inl rfl⟩
  · exact ⟨t.setReg vf b, rfl, rfl, fun _ hr => State.reg_setReg_ne t b hr,
      .inr ⟨hkept, State.reg_setReg_self t vf b⟩⟩

end VfBlind

/-! ## The flag-writing and the flagless operations -/

/-- Each of the six operations with a flag writes it last, after its result or its picture. -/
theorem flagWriters_leave_flag {i : Instr} {s t : State} {x y n : Nibble}
    (hi : i ∈ [Instr.addReg x y, .sub x y, .subn x y, .shr x y, .shl x y, .drw x y n]) (h : exec i s = .next t)
    (hf : t.fault = none) : t.reg vf = 0x00 ∨ t.reg vf = 0x01 := by
  simp only [List.mem_cons, List.not_mem_nil, or_false] at hi
  rcases hi with rfl | rfl | rfl | rfl | rfl | rfl
  · rw [reg_vf_of_putResultFlag h]; exact flag_eq _
  · rw [reg_vf_of_putResultFlag h]; exact flag_eq _
  · rw [reg_vf_of_putResultFlag h]; exact flag_eq _
  · rw [reg_vf_of_putResultFlag h]; exact shiftRightFlag_eq _
  · rw [reg_vf_of_putResultFlag h]; exact flag_eq _
  · rw [reg_vf_of_drw h hf]; exact flag_eq _

/-- The operations without a flag write the register they name first and no other (43_alu.md sections 2 and 3). -/
theorem regsWritten_of_flagless {i : Instr} {x y : Nibble} {kk : Byte}
    (hi : i ∈ [Instr.addImm x kk, .orReg x y, .andReg x y, .xorReg x y]) : regsWritten i = [x] := by
  simp only [List.mem_cons, List.not_mem_nil, or_false] at hi
  rcases hi with rfl | rfl | rfl | rfl <;> rfl

/-- Settles O43: the six flags are written last; an instruction that does not read VF runs alike from both states; the
flagless operations keep VF because it is not in the list of registers they write. -/
theorem flagWritesOverwriteVf : Obligations.FlagWritesOverwriteVf := by
  unfold Obligations.FlagWritesOverwriteVf
  refine ⟨fun i s t x y n hi _ h hf => flagWriters_leave_flag hi h hf, fun i s t b hi h => ?_,
    fun i s t x y kk hi hx h => exec_keeps_reg h ?_, rfl⟩
  · exact (h ▸ exec_vfBlind_of_not_read hi : VfBlind b s (.next t) _).spec
  · rw [regsWritten_of_flagless hi]
    exact fun hm => hx (List.mem_singleton.1 hm).symm

end Sys2Proof.Machine
end

section
/-! PROOFS. Memory (20_memory.md R58): what one written byte leaves at every address, inside memory or not, and that
writing it again changes nothing. -/

namespace Sys2Proof.Machine

open Sys2Proof

/-- Below its first address a canonical list is left alone by a write of the construction value. -/
theorem memWrite_initialByte_below {font : Font} {lo a : Nat} {m : List Host.Cell} (h : memWfFrom font lo m = true)
    (ha : a < lo) : memWrite font m a (initialByte font a) = m := by
  cases m with
  | nil => exact if_pos rfl
  | cons c rest =>
    obtain ⟨hlo, -⟩ := memWfFrom_cons.1 h
    rw [memWrite, if_pos (by omega), if_pos rfl]

/-- A byte written twice is the same data as the byte written once: a second write finds the cell the first one left, or,
where the byte is the construction value, finds none. -/
theorem memWrite_memWrite_self {font : Font} {lo : Nat} {m : List Host.Cell} (h : memWfFrom font lo m = true) (a : Nat)
    (v : Byte) : memWrite font (memWrite font m a v) a v = memWrite font m a v := by
  induction m generalizing lo with
  | nil => by_cases hv : v = initialByte font a <;> simp [memWrite, hv]
  | cons c rest ih =>
    obtain ⟨k, w⟩ := c
    obtain ⟨-, -, -, hrest⟩ := memWfFrom_cons.1 h
    rcases Nat.lt_trichotomy a k with hak | rfl | hak
    · by_cases hv : v = initialByte font a <;> simp [memWrite, hak, hv]
    · by_cases hv : v = initialByte font a
      · subst hv
        simpa [memWrite] using memWrite_initialByte_below hrest (Nat.lt_succ_self a)
      · simp [memWrite, hv]
    · simp [memWrite, Nat.lt_asymm hak, Nat.ne_of_gt hak, ih hrest]

/-- Settles O23: a state's one-byte write is one write of its list of cells, whose read law and idempotence these are;
where no cell is listed a read is the construction value by definition. -/
theorem readReturnsTheByteLastWritten : Obligations.ReadReturnsTheByteLastWritten := by
  unfold Obligations.ReadReturnsTheByteLastWritten
  refine ⟨fun s a b v hwf => ⟨memRead_memWrite hwf a b v, ?_⟩, fun s a hmem => ?_⟩
  · exact congrArg (fun m => { s with mem := m }) (memWrite_memWrite_self hwf a v)
  · rw [State.readByte, hmem, memRead]

end Sys2Proof.Machine
end

section
/-! PROOFS. The fields of a word (30_encoding.md R71): where two of them overlap, the wider one is the narrower ones side
by side. -/

namespace Sys2Proof

theorem fieldKK_eq_append (op : Word) : fieldKK op = fieldY op ++ fieldN op := by
  apply BitVec.eq_of_toNat_eq; rw [append_toNat, fieldKK_toNat, fieldY_toNat, fieldN_toNat]; omega

theorem fieldNNN_eq_append (op : Word) : fieldNNN op = fieldX op ++ fieldKK op := by
  apply BitVec.eq_of_toNat_eq; rw [append_toNat, fieldNNN_toNat, fieldX_toNat, fieldKK_toNat]; omega

/-- Settles O2: whatever the class, the record's fields are the word's own, and each of those is a quotient and a
remainder of the word. -/
theorem fieldsAreTheBitsOfTheWord : Obligations.FieldsAreTheBitsOfTheWord := by
  unfold Obligations.FieldsAreTheBitsOfTheWord
  exact fun _ op => ⟨fieldF_toNat op, fieldX_toNat op, fieldY_toNat op, fieldKK_toNat op, fieldNNN_toNat op,
    fieldN_toNat op, fieldKK_eq_append op, fieldNNN_eq_append op⟩

end Sys2Proof
end

section
/-! PROOFS. The PC action of the 35 instructions (40_tick_cycle.md R103, R104): the PC each shared ending leaves where
nothing was raised, and from those the PC after every instruction. -/

namespace Sys2Proof.Machine

open Sys2Proof

/-! ## The endings -/

theorem fault_ne_none_of_raise {s t : State} {kind : FaultKind} {addr : Option Nat} (h : s.raise kind addr = .next t) :
    t.fault ≠ none := by
  cases h
  simp

theorem pc_of_skipIf {s t : State} {c : Bool} (h : s.skipIf c = .next t) :
    t.pc = if c = true then s.pc + 4 else s.pc + 2 := by
  rw [State.skipIf_eq] at h
  cases h
  rfl

/-- A memory instruction that raises nothing leaves its own state. -/
theorem eq_of_withRange_of_no_fault {s t u : State} {n : Nat} (h : s.withRange n (.next u) = .next t)
    (hf : t.fault = none) : t = u := by
  rcases State.withRange_cases s n (.next u) with ⟨hown, -⟩ | ⟨a, -, hraise⟩
  · rw [hown] at h
    cases h
    rfl
  · exact absurd hf (fault_ne_none_of_raise (hraise ▸ h))

@[simp] theorem State.loadRegs_pc (s : State) (a : Nat) (x : Nibble) : (s.loadRegs a x).pc = s.pc := by
  obtain ⟨-, v, hv⟩ := State.loadRegs_spec s a x
  rw [hv]

/-! ## The conditions -/

/-- R104's jump target of JP V0: the sum is at most 0x10FE, so 16 bits hold it (R124). -/
theorem jpV0_target_toNat (b : Byte) (nnn : Addr12) : (zextByte b + zextNNN nnn).toNat = b.toNat + nnn.toNat := by
  have hb := b.isLt
  have hn := nnn.isLt
  rw [BitVec.toNat_add, zextByte_toNat, zextNNN_toNat]
  omega

theorem room_of_call {nnn : Addr12} {s t : State} (h : exec (.call nnn) s = .next t) (hf : t.fault = none) :
    s.sp < s.params.stackDepth := by
  by_contra hfull
  rw [exec, execCall, if_neg hfull] at h
  exact fault_ne_none_of_raise h hf

theorem entry_of_ret {s t : State} (h : exec .ret s = .next t) (hf : t.fault = none) : 0 < s.sp := by
  by_contra hempty
  rw [exec, execRet, if_neg hempty] at h
  exact fault_ne_none_of_raise h hf

/-- The key a byte names is KEYS at the byte's number. -/
theorem keys_getElem?_of_keyIndex {s : State} {b : Byte} {k : Nibble} (h : keyIndex b = some k) :
    s.keys[b.toNat]? = some (s.keyDown k) := by
  rw [keyIndex_eq_some.1 h]
  exact Vector.getElem?_eq_getElem k.isLt

/-! ## The instructions with a condition -/

theorem pc_of_skp {x : Nibble} {s t : State} (h : exec (.skp x) s = .next t) (hf : t.fault = none) :
    t.pc = if s.keys[(s.reg x).toNat]? = some true then s.pc + 4 else s.pc + 2 := by
  rw [exec, execSkp] at h
  cases hk : keyIndex (s.reg x) with
  | none => rw [hk] at h; exact absurd hf (fault_ne_none_of_raise h)
  | some k =>
    rw [hk] at h
    simpa [keys_getElem?_of_keyIndex hk] using pc_of_skipIf h

theorem pc_of_sknp {x : Nibble} {s t : State} (h : exec (.sknp x) s = .next t) (hf : t.fault = none) :
    t.pc = if s.keys[(s.reg x).toNat]? = some true then s.pc + 2 else s.pc + 4 := by
  rw [exec, execSknp] at h
  cases hk : keyIndex (s.reg x) with
  | none => rw [hk] at h; exact absurd hf (fault_ne_none_of_raise h)
  | some k =>
    rw [hk] at h
    rw [keys_getElem?_of_keyIndex hk, pc_of_skipIf h]
    cases s.keyDown k <;> rfl

/-- The key wait goes on where some key is pressed and holds PC elsewhere (R222; D15). -/
theorem pc_of_ldVxK {x : Nibble} {s t : State} (h : exec (.ldVxK x) s = .next t) :
    t.pc = if ∃ k : Nibble, s.keyDown k = true then s.pc + 2 else s.pc := by
  rw [exec, execLdVxK] at h
  cases hk : s.leastKey with
  | some k =>
    rw [hk] at h
    cases h
    rw [if_pos ⟨k, (State.leastKey_eq_some.1 hk).1⟩]
    rfl
  | none =>
    rw [hk] at h
    cases h
    rw [if_neg (by simp [State.leastKey_eq_none.1 hk])]
    rfl

/-- Settles O17, instruction by instruction: a jump's target is its operand by number, a skip's condition is the one its
ending was given, and a memory instruction that raises nothing ends as the others do, with the default advance. -/
theorem pcActionOfEveryInstruction : Obligations.PcActionOfEveryInstruction := by
  unfold Obligations.PcActionOfEveryInstruction
  intro i s t _ h hf
  cases i with
  | jp nnn => cases h; exact zextNNN_toNat nnn
  | call nnn =>
    rw [exec_call_of_room (room_of_call h hf)] at h
    cases h
    exact zextNNN_toNat nnn
  | jpV0 nnn => cases h; exact jpV0_target_toNat (s.reg 0) nnn
  | ret =>
    intro w hw
    rw [exec_ret_of_entry (entry_of_ret h hf) hw] at h
    cases h
    rfl
  | seImm x kk => simpa using pc_of_skipIf h
  | sneImm x kk => simpa using pc_of_skipIf h
  | seReg x y n => simpa using pc_of_skipIf h
  | sneReg x y n => simpa using pc_of_skipIf h
  | skp x => exact pc_of_skp h hf
  | sknp x => exact pc_of_sknp h hf
  | ldVxK x => exact pc_of_ldVxK h
  | drw x y n => rw [eq_of_withRange_of_no_fault h hf]; rfl
  | ldBVx x => rw [eq_of_withRange_of_no_fault h hf]; rfl
  | ldMemVx x => rw [eq_of_withRange_of_no_fault h hf]; rfl
  | ldVxMem x => simp [eq_of_withRange_of_no_fault h hf, nextPc]
  | _ => cases h; rfl

end Sys2Proof.Machine
end

section
/-! PROOFS. LD Vx, kk (43_alu.md R150): its two bytes are its word, and that word's family alone fixes its class, so
STRICT_59 plays no part. -/

namespace Sys2Proof.Machine

open Sys2Proof

/-- A first byte that holds family and x, and a second that holds kk, are a word of format XKK. -/
theorem opOf_append (f x : Nibble) (kk : Byte) : opOf (f ++ x) kk = wordXKK f x kk := by
  apply BitVec.eq_of_toNat_eq; rw [opOf_toNat, append_toNat, wordXKK_toNat]; omega

theorem classOf_of_family6 {op : Word} (strict59 : Bool) (h : fieldF op = 0x6) : classOf strict59 op = .LD_IMM := by
  simp [classOf, h]

theorem decode_ldImm (strict59 : Bool) (x : Nibble) (kk : Byte) : decode strict59 (0x6#4 ++ x) kk = .ok (.ldImm x kk) := by
  obtain ⟨hf, hx, hkk⟩ := fields_wordXKK 0x6#4 x kk
  rw [decode, opOf_append]
  simp only [decodeRecord, Decoded.toInstr, classOf_of_family6 strict59 hf, hx, hkk]

/-- Settles O37: the word is LD's, and LD is a register write with the default advance. -/
theorem loadImmediate : Obligations.LoadImmediate := by
  unfold Obligations.LoadImmediate
  exact fun x kk s => ⟨fun strict => decode_ldImm strict x kk, s.putResult_spec x kk⟩

end Sys2Proof.Machine
end

section
/-! PROOFS. Construction (70_reset_and_hazards.md R290): the machine before its image is written, what one image of at
most PROG_MAX bytes makes of it, and that machine's memory, region by region. -/

namespace Sys2Proof.Machine

open Sys2Proof

/-! ## The contents without an image (R51) -/

/-- The font lies glyph by glyph, five bytes each, from FONT_BASE. -/
theorem initialByte_glyph (font : Font) {k j : Nat} (hk : k < 16) (hj : j < 5) :
    initialByte font (5 * k + j) = font[k][j] := by
  simp only [initialByte, dif_pos (show 5 * k + j < 80 by omega), show (5 * k + j) / 5 = k by omega,
    show (5 * k + j) % 5 = j by omega]

theorem initialByte_above_font (font : Font) {a : Nat} (ha : 80 ≤ a) : initialByte font a = 0 :=
  dif_neg (Nat.not_lt.2 ha)

/-! ## The machine an image makes -/

/-- The machine of the given parameters before the image is written. -/
def State.blank (p : Params) : State := { State.reset with params := p, stack := List.replicate p.stackDepth 0 }

theorem State.construct_of_le {p : Params} {image : List Byte} (h : image.length ≤ progMax) :
    State.construct p image = some ((State.blank p).writeBytes progBase image) :=
  if_pos h

theorem State.construct_of_gt {p : Params} {image : List Byte} (h : progMax < image.length) :
    State.construct p image = none :=
  if_neg (Nat.not_le.2 h)

/-! ## Its memory -/

theorem State.loaded_readByte (p : Params) {image : List Byte} (h : image.length ≤ progMax) (b : Nat) :
    ((State.blank p).writeBytes progBase image).readByte b =
      if progBase ≤ b then (image[b - progBase]?).getD (initialByte p.font b) else initialByte p.font b :=
  State.readByte_writeBytes (s := State.blank p) rfl progBase image (Nat.add_le_add_left h progBase) b

/-- An address outside the image holds what it holds without one. -/
theorem State.loaded_readByte_outside (p : Params) {image : List Byte} (h : image.length ≤ progMax) {b : Nat}
    (hb : b < progBase ∨ progBase + image.length ≤ b) :
    ((State.blank p).writeBytes progBase image).readByte b = initialByte p.font b := by
  rw [State.loaded_readByte p h]
  rcases hb with hb | hb
  · exact if_neg (Nat.not_le.2 hb)
  · rw [List.getElem?_eq_none (by omega), Option.getD_none, ite_self]

theorem State.loaded_readByte_image (p : Params) {image : List Byte} (h : image.length ≤ progMax) {k : Nat}
    (hk : k < image.length) : ((State.blank p).writeBytes progBase image).readByte (progBase + k) = image[k] := by
  rw [State.loaded_readByte p h, if_pos (Nat.le_add_right progBase k), Nat.add_sub_cancel_left,
    List.getElem?_eq_getElem hk, Option.getD_some]

/-- Settles O18: the image's region reads as the image and every other address as without one, the font below 80 and zero
from there; no other item depends on the image. -/
theorem constructionFromAnImage : Obligations.ConstructionFromAnImage := by
  unfold Obligations.ConstructionFromAnImage
  refine fun p image => ⟨State.construct_of_gt, fun h => ⟨_, State.construct_of_le h, ?font, ?gap, ?image, ?above,
    rfl, ?registers, rfl, rfl, rfl, rfl, rfl, rfl, cellOf_empty, rfl, ?keys, rfl, rfl⟩⟩
  case font =>
    intro k j hk hj
    rw [State.loaded_readByte_outside p h (.inl (by unfold progBase; omega)), initialByte_glyph p.font hk hj]
  case gap =>
    intro a hfont hbase
    rw [State.loaded_readByte_outside p h (.inl hbase), initialByte_above_font p.font hfont]
  case image => exact fun k hk => State.loaded_readByte_image p h hk
  case above =>
    intro a ha _
    rw [State.loaded_readByte_outside p h (.inr ha), initialByte_above_font p.font (by omega)]
  case registers => exact fun r => Vector.getElem_replicate r.isLt
  case keys => exact fun k => Vector.getElem_replicate k.isLt

end Sys2Proof.Machine
end

section
/-! PROOFS. The encoding (30_encoding.md R71 to R81): decoding a word's two bytes is decoding the word; a class fixes the
constructor and, with the word's pattern, its operands, which gives both round trips; and the INVALID words. -/

namespace Sys2Proof

/-! ## A word through the decoder -/

/-- Memory holds a word as its two bytes, and decoding those is decoding the word (20_memory.md R55). -/
theorem decode_bytes (strict59 : Bool) (op : Word) :
    decode strict59 (hiByte op) (loByte op) = (decodeRecord strict59 op).toInstr := by
  rw [decode, opOf_bytes]

/-- The per-instruction family EncodedFields as one statement. -/
theorem encodedFields (i : Instr) : Laws.EncodedFields.Statement i := by
  cases i with
  | cls | ret => rfl
  | sys | jp | call | ldI | jpV0 => exact fields_wordNNN _ _
  | seImm | sneImm | ldImm | addImm | rnd | skp | sknp | ldVxDt | ldVxK | ldDtVx | ldStVx | addIVx | ldFVx | ldBVx
  | ldMemVx | ldVxMem => exact fields_wordXKK _ _ _
  | seReg | ldReg | orReg | andReg | xorReg | addReg | sub | shr | subn | shl | sneReg | drw =>
    exact fields_wordXYN _ _ _ _

/-- Settles O1: finitely many words, each through the decoder. -/
theorem decodeOfWordsOfTheMap : Obligations.DecodeOfWordsOfTheMap := by
  unfold Obligations.DecodeOfWordsOfTheMap
  exact ⟨by decide, by decide, by decide⟩

/-- Settles O3: a word is its format's, by number, with the family, and the selector where there is one, of the
instruction. -/
theorem wordsOfTheOpcodeMap : Obligations.WordsOfTheOpcodeMap := by
  unfold Obligations.WordsOfTheOpcodeMap
  intro x y n kk nnn
  simp only [encode, wordNNN_toNat, wordXKK_toNat, wordXYN_toNat]
  and_intros <;> simp only [BitVec.reduceToNat] <;> omega

/-! ## Decode after encode -/

/-- The words of SYS are those of family 0 but two (R77). -/
theorem classFamily0_encode_sys {strict59 : Bool} {nnn : Addr12} (h : Instr.wf strict59 (.sys nnn) = true) :
    classFamily0 (encode (.sys nnn)) = .SYS := by
  simp only [Instr.wf, Bool.and_eq_true, bne_iff_ne] at h
  have hfield : fieldNNN (encode (.sys nnn)) = nnn := (fields_wordNNN 0x0 nnn).2
  have hne (w : Word) (hw : nnn ≠ fieldNNN w) : encode (.sys nnn) ≠ w := fun e => hw (by rw [← e, hfield])
  rw [classFamily0, if_neg (hne 0x00E0 h.1), if_neg (hne 0x00EE h.2)]

theorem classFamily59_of_wf {strict59 : Bool} {n : Nibble} (c : Class) (h : (!strict59 || n == 0) = true) :
    classFamily59 strict59 n c = c := by
  unfold classFamily59
  exact if_pos (by simpa [or_comm] using h)

/-- Settles O4: the word's family, and in families 0, 5, 8, 9, E and F its selector, give the constructor back, and its
other fields the operands. -/
theorem decodeOfEncode : Obligations.DecodeOfEncode := by
  unfold Obligations.DecodeOfEncode
  intro strict i hwf
  rw [decode_bytes]
  have hfields := encodedFields i
  cases i with
  | cls | ret => rfl
  | sys nnn =>
    obtain ⟨hf, hnnn⟩ := hfields
    simp [Decoded.toInstr, decodeRecord, classOf, hf, hnnn, classFamily0_encode_sys hwf]
  | jp | call | ldI | jpV0 =>
    obtain ⟨hf, hnnn⟩ := hfields
    simp [Decoded.toInstr, decodeRecord, classOf, hf, hnnn]
  | seImm | sneImm | ldImm | addImm | rnd =>
    obtain ⟨hf, hx, hkk⟩ := hfields
    simp [Decoded.toInstr, decodeRecord, classOf, hf, hx, hkk]
  | skp | sknp | ldVxDt | ldVxK | ldDtVx | ldStVx | addIVx | ldFVx | ldBVx | ldMemVx | ldVxMem =>
    obtain ⟨hf, hx, hkk⟩ := hfields
    simp [Decoded.toInstr, decodeRecord, classOf, classFamilyE, classFamilyF, hf, hx, hkk]
  | seReg | sneReg =>
    obtain ⟨hf, hx, hy, hn⟩ := hfields
    simp [Decoded.toInstr, decodeRecord, classOf, hf, hx, hy, hn, classFamily59_of_wf _ hwf]
  | ldReg | orReg | andReg | xorReg | addReg | sub | shr | subn | shl | drw =>
    obtain ⟨hf, hx, hy, hn⟩ := hfields
    simp [Decoded.toInstr, decodeRecord, classOf, classFamily8, hf, hx, hy, hn]

/-! ## Encode after decode -/

theorem wordNNN_of_family {op : Word} {f : Nibble} (hf : fieldF op = f) : wordNNN f (fieldNNN op) = op := by
  rw [← hf, wordNNN_fields]

theorem wordXKK_of_family {op : Word} {f : Nibble} (hf : fieldF op = f) : wordXKK f (fieldX op) (fieldKK op) = op := by
  rw [← hf, wordXKK_fields]

theorem wordXKK_of_selector {op : Word} {f : Nibble} {kk : Byte} (h : fieldF op = f ∧ fieldKK op = kk) :
    wordXKK f (fieldX op) kk = op := by
  rw [← h.2, wordXKK_of_family h.1]

theorem wordXYN_of_family {op : Word} {f : Nibble} (hf : fieldF op = f) :
    wordXYN f (fieldX op) (fieldY op) (fieldN op) = op := by
  rw [← hf, wordXYN_fields]

theorem wordXYN_of_selector {op : Word} {f n : Nibble} (h : fieldF op = f ∧ fieldN op = n) :
    wordXYN f (fieldX op) (fieldY op) n = op := by
  rw [← h.2, wordXYN_of_family h.1]

/-- A record of a word decodes to an instruction that is well-formed and whose word it is. -/
theorem encode_of_toInstr {strict59 : Bool} {op : Word} {i : Instr}
    (h : (decodeRecord strict59 op).toInstr = .ok i) : i.wf strict59 = true ∧ encode i = op := by
  have hpat := classOf_pattern strict59 op
  unfold Decoded.toInstr decodeRecord at h
  generalize classOf strict59 op = c at h hpat
  cases c with
  | INVALID => cases h
  | CLS | RET => cases h; exact ⟨rfl, Eq.symm hpat⟩
  | SYS =>
    cases h
    obtain ⟨hf, hcls, hret⟩ := hpat
    have hword : wordNNN 0x0 (fieldNNN op) = op := wordNNN_of_family hf
    refine ⟨?_, hword⟩
    simp only [Instr.wf, Bool.and_eq_true, bne_iff_ne]
    exact ⟨fun e => hcls (by rw [← hword, e]; rfl), fun e => hret (by rw [← hword, e]; rfl)⟩
  | JP | CALL | LD_I | JP_V0 => cases h; exact ⟨rfl, wordNNN_of_family hpat⟩
  | SE_IMM | SNE_IMM | LD_IMM | ADD_IMM | RND => cases h; exact ⟨rfl, wordXKK_of_family hpat⟩
  | SKP | SKNP | LD_VX_DT | LD_VX_K | LD_DT_VX | LD_ST_VX | ADD_I_VX | LD_F_VX | LD_B_VX | LD_MEM_VX | LD_VX_MEM =>
    cases h; exact ⟨rfl, wordXKK_of_selector hpat⟩
  | DRW => cases h; exact ⟨rfl, wordXYN_of_family hpat⟩
  | SE_REG | SNE_REG =>
    cases h
    obtain ⟨hf, hn⟩ := hpat
    exact ⟨by simpa [Instr.wf, or_comm] using hn, wordXYN_of_family hf⟩
  | LD_REG | OR | AND | XOR | ADD_REG | SUB | SHR | SUBN | SHL => cases h; exact ⟨rfl, wordXYN_of_selector hpat⟩

/-- Settles O5: the class the word was given says what its fields are, and the fields make up the word. -/
theorem encodeOfDecode : Obligations.EncodeOfDecode := by
  unfold Obligations.EncodeOfDecode
  intro strict hi lo i h
  obtain ⟨hwf, hword⟩ := encode_of_toInstr h
  rw [hword]
  exact ⟨hwf, hiByte_opOf hi lo, loByte_opOf hi lo⟩

/-! ## The INVALID words (R79, R81) -/

/-- A record is rejected exactly where its class is INVALID. -/
theorem toInstr_eq_error_iff (d : Decoded) : d.toInstr = .error (.invalid d) ↔ d.cls = .INVALID := by
  unfold Decoded.toInstr
  split <;> simp_all

theorem classFamily8_eq_INVALID : ∀ n : Nibble,
    classFamily8 n = .INVALID ↔ n ∈ ([0x8, 0x9, 0xA, 0xB, 0xC, 0xD, 0xF] : List Nibble) := by
  decide

theorem classFamilyE_eq_INVALID (kk : Byte) : classFamilyE kk = .INVALID ↔ kk ∉ ([0x9E, 0xA1] : List Byte) := by
  unfold classFamilyE
  split_ifs <;> simp_all

theorem classFamilyF_eq_INVALID (kk : Byte) : classFamilyF kk = .INVALID ↔
    kk ∉ ([0x07, 0x0A, 0x15, 0x18, 0x1E, 0x29, 0x33, 0x55, 0x65] : List Byte) := by
  unfold classFamilyF
  split_ifs <;> simp_all

theorem classFamily59_eq_INVALID {strict59 : Bool} {n : Nibble} {c : Class} (hc : c ≠ .INVALID) :
    classFamily59 strict59 n c = .INVALID ↔ strict59 = true ∧ n ≠ 0 := by
  unfold classFamily59
  split_ifs with h
  · have hnot : ¬(strict59 = true ∧ n ≠ 0) := by simpa [or_comm, imp_iff_not_or] using h
    exact iff_of_false hc hnot
  · simpa [and_comm] using h

theorem classFamily0_ne_INVALID (op : Word) : classFamily0 op ≠ .INVALID := by
  unfold classFamily0
  split_ifs <;> decide

/-- Settles O6: family by family, a class is INVALID where the family's selector is none of those it lists. -/
theorem rejectedWordsAreTheListedOnes : Obligations.RejectedWordsAreTheListedOnes := by
  unfold Obligations.RejectedWordsAreTheListedOnes
  intro strict op
  rw [decode_bytes, toInstr_eq_error_iff]
  show classOf strict op = .INVALID ↔ _
  unfold classOf
  split
  case h_1 h => simp [h, classFamily0_ne_INVALID]
  case h_6 h => simp [h, classFamily59_eq_INVALID]
  case h_9 h => simp [h, classFamily8_eq_INVALID]
  case h_10 h => simp [h, classFamily59_eq_INVALID]
  case h_15 h => simp [h, classFamilyE_eq_INVALID]
  case h_16 h0 h1 h2 h3 h4 h5 h6 h7 h8 h9 hA hB hC hD hE =>
    simp [nibble_eq_F _ h0 h1 h2 h3 h4 h5 h6 h7 h8 h9 hA hB hC hD hE, classFamilyF_eq_INVALID]
  all_goals (rename_i h; simp [h])

end Sys2Proof
end

section
/-! PROOFS. One tick (40_tick_cycle.md R100; 60_exceptions.md R250 to R255): its outcome, what it leaves where it faults,
what it takes from the host, and what it leaves in REDRAW. -/

namespace Sys2Proof.Machine

open Sys2Proof

/-! ## The outcome -/

/-- Settles O13: a tick has three cases, FAULT set, elapsed negative, and neither, and one outcome in each. -/
theorem outcomeOfATick : Obligations.OutcomeOfATick := by
  unfold Obligations.OutcomeOfATick
  intro s
  rcases Option.eq_none_or_eq_some s.fault with hf | ⟨r, hf⟩
  · by_cases he : s.acceptInput.elapsed < 0
    · simp [step_refused hf he, hf, he, eq_comm]
    · obtain ⟨t, ht⟩ := step_goes_on hf (not_lt.1 he)
      simp [ht, hf, he, not_lt.1 he]
  · simp [step_faulted hf, hf, eq_comm]

/-- A run whose first step faults stops there. -/
theorem run_succ_of_fault {M : Host.Core} {s : M.State} {r : M.Fault} (h : M.step s = .fault r) (k : Nat) :
    M.run (k + 1) s = .fault r := by
  rw [Host.Core.run, h]

/-- Settles O12: the first of the ticks already answers the record. -/
theorem faultedMachineStaysFaulted : Obligations.FaultedMachineStaysFaulted := by
  unfold Obligations.FaultedMachineStaysFaulted
  exact fun s r k hf => run_succ_of_fault (M := core) (step_faulted hf) k

/-! ## Faults -/

/-- Settles O14: of the two things a tick that goes on can have done, only the fault leaves FAULT set. -/
theorem faultsArePrecise : Obligations.FaultsArePrecise := by
  unfold Obligations.FaultsArePrecise
  intro s t r h hr
  obtain ⟨-, -, ⟨r', ⟨hpc, -, -⟩, rfl⟩ | ⟨i, u, -, -, -, -, hu, rfl⟩⟩ := step_next_cases h
  · cases hr
    exact ⟨hpc, rfl⟩
  · exact nomatch hu.symm.trans hr

/-- Settles O15: an instruction raises its one kind or keeps FAULT. -/
theorem eachInstructionRaisesOneKindAtMost : Obligations.EachInstructionRaisesOneKindAtMost := by
  unfold Obligations.EachInstructionRaisesOneKindAtMost
  intro i s t r hf h hr
  rcases exec_raised_or_framed i s t h with ⟨kind, addr, hi, -, -, rfl⟩ | hframe
  · cases hr
    exact hi
  · rw [hframe.fault (fault_not_mem_ownFields i), hf] at hr
    cases hr

/-- Settles O16: the codes are the five cases of the definition. -/
theorem faultCodes : Obligations.FaultCodes := by
  unfold Obligations.FaultCodes
  exact ⟨rfl, rfl, rfl, rfl, rfl⟩

/-- A tick that cannot fetch records the least address it lacks (R101). -/
theorem step_of_fetch_error {s : State} (hf : s.fault = none) (he : 0 ≤ s.acceptInput.elapsed)
    (hp : 0xFFF < s.pc.toNat + 1) : step s = .next (s.beginTick.setFault
      ⟨.memoryBoundsViolation, s.pc, some (if 0xFFF < s.pc.toNat then s.pc.toNat else 0x1000)⟩) := by
  rw [step_runs hf he, State.fetchExecute, State.fetch_error (by simpa using hp)]
  simp [State.raise_eq, endTickOf, State.endTick]

/-- Settles O10: where PC itself exists, PC + 1 is 0x1000. -/
theorem fetchOutOfMemoryFaults : Obligations.FetchOutOfMemoryFaults := by
  unfold Obligations.FetchOutOfMemoryFaults
  intro s hf he hp
  have haddr : (if 0xFFF < s.pc.toNat then s.pc.toNat else s.pc.toNat + 1) =
      if 0xFFF < s.pc.toNat then s.pc.toNat else 0x1000 := by split_ifs <;> omega
  rw [haddr]
  exact step_of_fetch_error hf he hp

/-- A tick whose word is INVALID records UnknownOpcode (R254). -/
theorem step_of_invalid {s : State} {d : Decoded} (hf : s.fault = none) (he : 0 ≤ s.acceptInput.elapsed)
    (hp : s.pc.toNat + 1 ≤ 0xFFF)
    (hd : decode s.params.strict59 (s.readByte s.pc.toNat) (s.readByte (s.pc.toNat + 1)) = .error (.invalid d)) :
    step s = .next (s.beginTick.setFault ⟨.unknownOpcode, s.pc, none⟩) := by
  rw [step_runs hf he, State.fetchExecute, State.fetch_ok (by simpa using hp)]
  simp [hd, execInvalid, State.raise_eq, endTickOf, State.endTick]

/-- A skip's condition looks at the registers and the keys only, which a tick's begin leaves as the host's input did. -/
theorem skipHolds_beginTick {s : State} {i : Instr} (h : skipHolds s.acceptInput i) : skipHolds s.beginTick i := by
  cases i <;> exact h

/-- Settles O11: an INVALID word raises its fault, and a skip that holds ends with PC + 4, so that the word it passes over
is not looked at. -/
theorem invalidWordRaisesUnknownOpcode : Obligations.InvalidWordRaisesUnknownOpcode := by
  unfold Obligations.InvalidWordRaisesUnknownOpcode
  refine ⟨fun s d hf he hp hd => ⟨_, step_of_invalid hf he hp hd, rfl, by simp⟩, fun s i hf he hp hd hi => ?_⟩
  rw [step_decoded hf he hp hd, exec_of_skipHolds (skipHolds_beginTick hi)]
  refine ⟨_, rfl, ?_, ?_⟩ <;> simp [State.endTick, hf]

/-! ## The frame of an instruction, whether or not it raises its fault -/

theorem Frame.setFault (s : State) (r : FaultRecord) : Frame [] [.fault] s (s.setFault r) := by
  constructor
  case fault => exact fun h => absurd (List.mem_singleton_self _) h
  all_goals (intros; rfl)

/-- Only FAULT is added to the fields an instruction writes when it raises nothing. -/
theorem not_mem_fieldsWritten {i : Instr} {f : Field} (h : f ∉ ownFields i) (hf : f ≠ .fault) : f ∉ fieldsWritten i := by
  unfold fieldsWritten
  split <;> simp [h, hf]

theorem exec_frame {i : Instr} {s t : State} (h : exec i s = .next t) :
    Frame (regsWritten i) (fieldsWritten i) s t := by
  rcases exec_raised_or_framed i s t h with ⟨kind, addr, hi, -, -, rfl⟩ | hframe
  · exact (Frame.setFault s _).weaken (by simp) (by simp [fieldsWritten, hi])
  · exact hframe.weaken (fun _ hr => hr) fun _ hm => List.mem_append_left _ hm

/-! ## Running the decoded instruction -/

theorem State.endTick_of_none {s : State} (h : s.fault = none) : s.endTick = s.advanceTimers s.elapsed := by
  rw [State.endTick, h]

theorem State.endTick_of_some {s : State} {r : FaultRecord} (h : s.fault = some r) : s.endTick = s := by
  rw [State.endTick, h]

/-- The end of a tick keeps elapsed, so the timers advance by what the host passed. -/
theorem endTick_eq {s t : State} {i : Instr} (h : exec i s.beginTick = .next t) :
    t.endTick = if t.fault = none then t.advanceTimers s.acceptInput.elapsed else t := by
  have helapsed : t.elapsed = s.acceptInput.elapsed := (exec_frame h).elapsed
  rcases Option.eq_none_or_eq_some t.fault with hf | ⟨r, hf⟩
  · rw [State.endTick_of_none hf, if_pos hf, helapsed]
  · rw [State.endTick_of_some hf, if_neg (by simp [hf])]

/-- Settles O7: the tick's begin is the state the statement writes out, and its end the timer advance. -/
theorem stepRunsTheDecodedInstruction : Obligations.StepRunsTheDecodedInstruction := by
  unfold Obligations.StepRunsTheDecodedInstruction
  intro s i hf he hp hd
  obtain ⟨t, ht⟩ := exec_answers_next i s.beginTick
  exact ⟨t, ht, by rw [step_decoded hf he hp hd, ht, endTickOf, endTick_eq ht]⟩

/-- Settles O53: with no key pressed LD Vx, K answers the state it ran in, so the tick's begin and its timer advance are
all there is. -/
theorem waitingTickAdvancesTheTimers : Obligations.WaitingTickAdvancesTheTimers := by
  unfold Obligations.WaitingTickAdvancesTheTimers
  intro s x hf he hp hd hkeys
  have hno : s.beginTick.leastKey = none := State.leastKey_eq_none.2 hkeys
  have hexec : exec (.ldVxK x) s.beginTick = .next s.beginTick := by
    simp only [exec, execLdVxK, hno]
    rfl
  rw [step_decoded hf he hp hd, hexec, endTickOf, endTick_eq hexec, if_pos (by simpa using hf)]
  rfl

/-- Settles O9: the fetch reads the byte at PC first, and the first byte is the word's high one. -/
theorem instructionWordIsBigEndian : Obligations.InstructionWordIsBigEndian := by
  unfold Obligations.InstructionWordIsBigEndian
  exact fun s hp => ⟨_, _, State.fetch_ok hp, rfl, rfl, opOf_toNat _ _, rfl⟩

/-! ## The host's input -/

theorem State.acceptInput_of_nil {s : State} (h : s.pending = []) : s.acceptInput = s := by
  rw [State.acceptInput, h]

theorem State.acceptInput_of_cons {s : State} {inp : HostInput} {rest : List HostInput} (h : s.pending = inp :: rest) :
    s.acceptInput = { s with keys := inp.keys, elapsed := inp.elapsed, pending := rest } := by
  rw [State.acceptInput, h]

/-- Settles O8, by the two cases of the pending list. -/
theorem tickAcceptsTheHostsInput : Obligations.TickAcceptsTheHostsInput := by
  unfold Obligations.TickAcceptsTheHostsInput
  exact fun _ => ⟨State.acceptInput_of_nil, fun _ _ => State.acceptInput_of_cons⟩

/-- Settles O28: neither a fault nor an instruction nor the timer advance writes any of the four. -/
theorem keysAreWrittenByTheHostAlone : Obligations.KeysAreWrittenByTheHostAlone := by
  unfold Obligations.KeysAreWrittenByTheHostAlone
  intro s t h
  obtain ⟨-, -, ⟨r, -, rfl⟩ | ⟨i, u, -, -, -, hframe, -, rfl⟩⟩ := step_next_cases h
  · simp
  · simp [hframe.keys, hframe.elapsed, hframe.pending, hframe.params]

/-! ## REDRAW -/

/-- An instruction that raises nothing sets REDRAW where it draws and keeps it elsewhere (R230, R231). -/
theorem exec_redraw {i : Instr} {s t : State} (h : exec i s = .next t) (hf : t.fault = none) :
    t.redraw = (draws i || s.redraw) := by
  cases i with
  | cls => cases h; rfl
  | drw x y n => rw [eq_of_withRange_of_no_fault h hf]; rfl
  | _ =>
    rcases exec_raised_or_framed _ s t h with ⟨kind, addr, -, -, -, rfl⟩ | hframe
    · cases hf
    · exact hframe.redraw (by simp [ownFields])

/-- Settles O27: a tick clears REDRAW, and then only its instruction can set it. -/
theorem redrawTellsTheLastTicksDrawing : Obligations.RedrawTellsTheLastTicksDrawing := by
  unfold Obligations.RedrawTellsTheLastTicksDrawing
  intro s t h
  obtain ⟨-, -, ⟨r, -, rfl⟩ | ⟨i, u, -, hdecode, hexec, -, hu, rfl⟩⟩ := step_next_cases h
  · simp
  · simp [exec_redraw hexec hu, hu, hdecode]

end Sys2Proof.Machine
end

section
/-! PROOFS. The invariant (10_state.md, 40_tick_cycle.md R104): what an instruction does to memory, the stack and PC, and
that construction establishes the invariant and every part of a tick keeps it. -/

namespace Sys2Proof.Machine

open Sys2Proof

/-! ## What an instruction stores (20_memory.md R57) -/

/-- An instruction leaves the cells alone, or has stored its bytes from I on, all of them inside memory. -/
theorem exec_mem_cases {i : Instr} {s t : State} (h : exec i s = .next t) :
    t.mem = s.mem ∨ ∃ bs, bs.length = bytesStored i ∧ s.iAddr + bs.length ≤ memSize ∧
      t.mem = memWriteList s.params.font s.mem s.iAddr bs := by
  cases i with
  | ldBVx x =>
    rcases withRange_raised_or (i := .ldBVx x) rfl h with ⟨kind, addr, -, -, -, rfl⟩ | ⟨rfl, hrange⟩
    · exact .inl rfl
    · exact .inr ⟨bcdDigits (s.reg x), rfl, hrange.resolve_left (by omega), rfl⟩
  | ldMemVx x =>
    rcases withRange_raised_or (i := .ldMemVx x) rfl h with ⟨kind, addr, -, -, -, rfl⟩ | ⟨rfl, hrange⟩
    · exact .inl rfl
    · refine .inr ⟨s.regsUpTo x, s.regsUpTo_length x, ?_, rfl⟩
      rw [s.regsUpTo_length]
      exact hrange.resolve_left (by omega)
  | ldVxMem x =>
    rcases withRange_raised_or (i := .ldVxMem x) rfl h with ⟨kind, addr, -, -, -, rfl⟩ | ⟨rfl, -⟩
    · exact .inl rfl
    · obtain ⟨-, v, hv⟩ := State.loadRegs_spec s s.iAddr x
      exact .inl (by simp [hv])
  | drw x y n =>
    rcases withRange_raised_or (i := .drw x y n) rfl h with ⟨kind, addr, -, -, -, rfl⟩ | ⟨rfl, -⟩ <;> exact .inl rfl
  | call | ret | skp | sknp | ldVxK =>
    simp only [exec, execCall, execRet, execSkp, execSknp, execLdVxK] at h
    split at h <;> cases h <;> exact .inl rfl
  | _ => cases h; exact .inl rfl

theorem exec_keeps_memory_wf {i : Instr} {s t : State} (hwf : Memory.wf s.params.font s.mem = true)
    (h : exec i s = .next t) : Memory.wf t.params.font t.mem = true := by
  rw [(exec_frame h).params]
  rcases exec_mem_cases h with hmem | ⟨bs, -, hrange, hmem⟩
  · rwa [hmem]
  · rw [hmem]
    exact memWfFrom_memWriteList hwf s.iAddr bs hrange

/-! ## What an instruction does to the stack (10_state.md R26, R27) -/

/-- An instruction that raises nothing leaves the stack alone, has pushed its own address where there was room, or has
popped. -/
theorem exec_stack_cases {i : Instr} {s t : State} (h : exec i s = .next t) (hf : t.fault = none) :
    (t.sp = s.sp ∧ t.stack = s.stack) ∨
    (s.sp < s.params.stackDepth ∧ t.sp = s.sp + 1 ∧ t.stack = s.stack.set s.sp s.pc) ∨
    (t.sp = s.sp - 1 ∧ t.stack = s.stack) := by
  cases i with
  | call nnn =>
    have hroom := room_of_call h hf
    rw [exec_call_of_room hroom] at h
    cases h
    exact .inr (.inl ⟨hroom, rfl, rfl⟩)
  | ret =>
    rw [exec, execRet, if_pos (entry_of_ret h hf)] at h
    cases h
    exact .inr (.inr ⟨rfl, rfl⟩)
  | _ =>
    rcases exec_raised_or_framed _ s t h with ⟨kind, addr, -, -, -, rfl⟩ | hframe
    · cases hf
    · exact .inl ⟨hframe.depth (by simp [ownFields]), hframe.stack (by simp [ownFields])⟩

/-- Every entry held is at most 0xFFE, the last address of a word (R27). -/
def State.SitesBounded (s : State) : Prop := ∀ k w, k < s.sp → s.stack[k]? = some w → w.toNat ≤ 0xFFE

theorem exec_keeps_sitesBounded {i : Instr} {s t : State} (hsites : s.SitesBounded) (hp : s.pc.toNat + 1 ≤ 0xFFF)
    (h : exec i s = .next t) (hf : t.fault = none) : t.SitesBounded := by
  intro k w hk hw
  rcases exec_stack_cases h hf with ⟨hsp, hstack⟩ | ⟨-, hsp, hstack⟩ | ⟨hsp, hstack⟩
  · exact hsites k w (hsp ▸ hk) (hstack ▸ hw)
  · rw [hstack] at hw
    by_cases hkey : k = s.sp
    · obtain ⟨-, hpc⟩ : s.sp < s.stack.length ∧ s.pc = w := by simpa [hkey, List.getElem?_set] using hw
      rw [← hpc]
      omega
    · rw [List.getElem?_set_ne (Ne.symm hkey)] at hw
      exact hsites k w (by omega) hw
  · exact hsites k w (by omega) (hstack ▸ hw)

/-! ## Where PC can go (R104) -/

/-- From a PC that was fetched, holding and advancing by 2 or 4 stay below the bound. -/
theorem pc_le_of_advance {p q : Word} (hp : p.toNat + 1 ≤ 0xFFF) (h : q = p + 4 ∨ q = p + 2 ∨ q = p) :
    q.toNat ≤ 0x10FE := by
  rcases h with rfl | rfl | rfl <;> bv_omega

theorem or_of_eq_ite {α : Type} {c : Prop} [Decidable c] {a b q : α} (h : q = if c then a else b) : q = a ∨ q = b :=
  (ite_eq_or_eq c a b).imp h.trans h.trans

theorem exec_pc_le {i : Instr} {s t : State} (hinv : s.Inv) (hp : s.pc.toNat + 1 ≤ 0xFFF) (hs : s.fault = none)
    (h : exec i s = .next t) (hf : t.fault = none) : t.pc.toNat ≤ 0x10FE := by
  have hact := pcActionOfEveryInstruction i s t hs h hf
  cases i with
  | jp nnn | call nnn =>
    have hn := nnn.isLt
    simp only at hact
    omega
  | jpV0 nnn =>
    have hn := nnn.isLt
    have hb := (s.reg 0).isLt
    simp only at hact
    omega
  | ret =>
    have hsp := entry_of_ret h hf
    have hlt : s.sp - 1 < s.stack.length := by have := hinv.depth; have := hinv.stackLength; omega
    have hentry : s.stack[s.sp - 1]? = some s.stack[s.sp - 1] := List.getElem?_eq_getElem hlt
    have hsite := hinv.returnSites _ _ (by omega) hentry
    exact pc_le_of_advance (by omega) (.inr (.inl (hact _ hentry)))
  | seImm | sneImm | seReg | sneReg | skp => exact pc_le_of_advance hp ((or_of_eq_ite hact).imp_right .inl)
  | sknp => exact pc_le_of_advance hp ((or_of_eq_ite hact).symm.imp_right .inl)
  | ldVxK => exact pc_le_of_advance hp (.inr (or_of_eq_ite hact))
  | _ => exact pc_le_of_advance hp (.inr (.inl hact))

/-! ## The parts of a tick keep the invariant -/

theorem State.Inv.beginTick {s : State} (h : s.Inv) : s.beginTick.Inv where
  memory := by simpa using h.memory
  stackLength := by simpa using h.stackLength
  depth := by simpa using h.depth
  returnSites := by simpa using h.returnSites
  pcRange := by simpa using h.pcRange
  accNonneg := by simpa using h.accNonneg
  accBound := by simpa using h.accBound
  faultPc := by simpa using h.faultPc
  faultAddr := by simpa using h.faultAddr
  faultAddrRange := by simpa using h.faultAddrRange

theorem State.Inv.setFault {s : State} {r : FaultRecord} (h : s.Inv) (hr : RecordAt s.pc r) : (s.setFault r).Inv :=
  { h with
    faultPc := by rintro _ ⟨⟩; exact hr.1
    faultAddr := by rintro _ ⟨⟩; exact hr.2.1
    faultAddrRange := by rintro _ a ⟨⟩ ha; exact hr.2.2 a ha }

/-- After an advance ACC is below one time-step, whatever it was. -/
theorem State.Inv.advanceTimers {s : State} {e : Rat} (h : s.Inv) (he : 0 ≤ e) : (s.advanceTimers e).Inv :=
  have hacc := State.advanceTimers_acc_bounds (add_nonneg h.accNonneg he)
  { h with accNonneg := hacc.1, accBound := hacc.2 }

/-- A fetched instruction that raises nothing keeps the invariant. -/
theorem State.Inv.exec {i : Instr} {s t : State} (hinv : s.Inv) (hp : s.pc.toNat + 1 ≤ 0xFFF) (hs : s.fault = none)
    (h : exec i s = .next t) (hf : t.fault = none) : t.Inv := by
  have hparams := (exec_frame h).params
  have hacc := (exec_frame h).acc
  have hlength := hinv.stackLength
  have hdepth := hinv.depth
  refine ⟨exec_keeps_memory_wf hinv.memory h, ?stackLength, ?depth, exec_keeps_sitesBounded hinv.returnSites hp h hf,
    exec_pc_le hinv hp hs h hf, hacc ▸ hinv.accNonneg, hacc ▸ hinv.accBound, ?_, ?_, ?_⟩
  case stackLength =>
    rw [hparams]
    rcases exec_stack_cases h hf with ⟨-, hstack⟩ | ⟨-, -, hstack⟩ | ⟨-, hstack⟩ <;> simpa [hstack] using hlength
  case depth =>
    rw [hparams]
    rcases exec_stack_cases h hf with ⟨hsp, -⟩ | ⟨hroom, hsp, -⟩ | ⟨hsp, -⟩ <;> omega
  all_goals simp [hf]

/-- Settles O22: a tick begins, and then records a fault or runs the decoded instruction and advances the timers; each of
these keeps the invariant. -/
theorem stepKeepsTheInvariant : Obligations.StepKeepsTheInvariant := by
  unfold Obligations.StepKeepsTheInvariant
  intro s t hinv h
  obtain ⟨hf, he, ⟨r, hr, rfl⟩ | ⟨i, u, hp, -, hexec, -, hu, rfl⟩⟩ := step_next_cases h
  · exact hinv.beginTick.setFault (by simpa using hr)
  · exact (hinv.beginTick.exec (by simpa using hp) (by simpa using hf) hexec hu).advanceTimers he

/-! ## Construction -/

theorem State.blank_inv (p : Params) : (State.blank p).Inv where
  memory := rfl
  stackLength := List.length_replicate
  depth := Nat.zero_le _
  returnSites := fun k _ hk _ => absurd hk (Nat.not_lt_zero k)
  pcRange := show pcReset.toNat ≤ 0x10FE by decide
  accNonneg := le_rfl
  accBound := one_div_pos.2 (by norm_num)
  faultPc := by rintro _ ⟨⟩
  faultAddr := by rintro _ ⟨⟩
  faultAddrRange := by rintro _ _ ⟨⟩

theorem State.Inv.writeBytes {s : State} {a : Nat} {bs : List Byte} (h : s.Inv) (ha : a + bs.length ≤ memSize) :
    (s.writeBytes a bs).Inv :=
  { h with memory := State.writeBytes_wf h.memory a bs ha }

/-- Settles O21: the machine before its image is written satisfies the invariant, and the image fits in memory. -/
theorem invariantAtConstruction : Obligations.InvariantAtConstruction := by
  unfold Obligations.InvariantAtConstruction
  intro p image s h
  by_cases hlen : image.length ≤ progMax
  · rw [State.construct_of_le hlen] at h
    cases h
    exact (State.blank_inv p).writeBytes (Nat.add_le_add_left hlen progBase)
  · rw [State.construct_of_gt (not_le.1 hlen)] at h
    cases h

/-- Settles O19: an empty image writes nothing, and the default parameters are the reset state's. -/
theorem resetIsConstructionWithoutAnImage : Obligations.ResetIsConstructionWithoutAnImage := by
  unfold Obligations.ResetIsConstructionWithoutAnImage
  exact ⟨State.construct_of_le (Nat.zero_le progMax), rfl, rfl, rfl, rfl⟩

/-- Settles O20: the reset state is a constructed one. -/
theorem invariantAtReset : Obligations.InvariantAtReset := by
  unfold Obligations.InvariantAtReset
  exact invariantAtConstruction defaultParams [] State.reset resetIsConstructionWithoutAnImage.1

end Sys2Proof.Machine
end

section
/-! PROOFS. What no instruction looks at: the stack entries at and above SP (10_state.md R26), and ST, ACC and REDRAW
(R29, R31; 46_timers.md R212). One relation between two runs serves both statements. -/

namespace Sys2Proof.Machine

open Sys2Proof

/-! ## Two runs that differ in the stack, ST, ACC and REDRAW -/

/-- `s` with other stack entries, another ST, ACC and REDRAW. -/
def State.disguise (s : State) (l : List Word) (c : Byte) (a : Rat) (b : Bool) : State :=
  { s with stack := l, st := c, acc := a, redraw := b }

/-- `r'` is `r` with the stack `l`, the ACC `a`, and an ST and a REDRAW that differ from those of `r` only where those of
`s` differ from `c` and `b`. -/
def Disguised (l : List Word) (c : Byte) (a : Rat) (b : Bool) (s : State) (r r' : Result) : Prop :=
  ∃ t c' b', r = .next t ∧ r' = .next (t.disguise l c' a b') ∧ (c = s.st → c' = t.st) ∧ (b = s.redraw → b' = t.redraw)

section Disguised

variable {l : List Word} {c : Byte} {a : Rat} {b : Bool} {s : State}

theorem Disguised.kept {t : State} (hst : t.st = s.st) (hredraw : t.redraw = s.redraw) :
    Disguised l c a b s (.next t) (.next (t.disguise l c a b)) :=
  ⟨t, c, b, rfl, rfl, fun h => h.trans hst.symm, fun h => h.trans hredraw.symm⟩

theorem Disguised.raise (kind : FaultKind) (addr : Option Nat) :
    Disguised l c a b s (s.raise kind addr) ((s.disguise l c a b).raise kind addr) := .kept rfl rfl

theorem Disguised.withRange (n : Nat) {k k' : Result} (h : Disguised l c a b s k k') :
    Disguised l c a b s (s.withRange n k) ((s.disguise l c a b).withRange n k') := by
  have hi : (s.disguise l c a b).iAddr = s.iAddr := rfl
  unfold State.withRange
  rw [hi]
  split
  · exact .raise _ _
  · exact h

/-- A range load writes V only, and the values it loads come from memory. -/
theorem State.loadRegs_disguise (p : Nat) (x : Nibble) :
    (s.disguise l c a b).loadRegs p x = (s.loadRegs p x).disguise l c a b := by
  obtain ⟨hreg, v, hv⟩ := State.loadRegs_spec s p x
  obtain ⟨hreg', v', hv'⟩ := State.loadRegs_spec (s.disguise l c a b) p x
  refine State.eq_of_regs (by rw [hv, hv']; rfl) fun r => ?_
  rw [hreg']
  exact (hreg r).symm

/-- Every instruction but CALL and RET runs alike: ST is overwritten by LD ST, Vx, and REDRAW by CLS and DRW. -/
theorem exec_disguised {i : Instr} (hi : Field.stack ∉ ownFields i) :
    Disguised l c a b s (exec i s) (exec i (s.disguise l c a b)) := by
  cases i with
  | call | ret => exact absurd (List.mem_singleton_self _) hi
  | ldStVx => exact ⟨_, _, _, rfl, rfl, fun _ => rfl, fun h => h⟩
  | cls => exact ⟨_, _, _, rfl, rfl, fun h => h, fun _ => rfl⟩
  | drw => exact .withRange _ ⟨_, _, _, rfl, rfl, fun h => h, fun _ => rfl⟩
  | ldBVx | ldMemVx => exact .withRange _ (.kept rfl rfl)
  | ldVxMem x =>
    obtain ⟨-, v, hv⟩ := State.loadRegs_spec s s.iAddr x
    refine .withRange _ ?_
    rw [show (s.disguise l c a b).iAddr = s.iAddr from rfl, State.loadRegs_disguise]
    exact .kept (by simp [hv]) (by simp [hv])
  | skp x | sknp x =>
    have hreg : (s.disguise l c a b).reg x = s.reg x := rfl
    simp only [exec, execSkp, execSknp, hreg]
    cases keyIndex (s.reg x) with
    | some k => exact .kept rfl rfl
    | none => exact .raise _ _
  | ldVxK x =>
    have hkey : (s.disguise l c a b).leastKey = s.leastKey := rfl
    simp only [exec, execLdVxK, hkey]
    cases s.leastKey with
    | some k => exact .kept rfl rfl
    | none => exact .kept rfl rfl
  | _ => exact .kept rfl rfl

end Disguised

/-! ## ST, ACC and REDRAW -/

/-- CALL and RET, with any ST, ACC and REDRAW, do the same to everything else. -/
theorem exec_stack_disguised {i : Instr} (hi : Field.stack ∈ ownFields i) {s t : State} (c : Byte) (a : Rat) (b : Bool)
    (h : exec i s = .next t) :
    exec i (s.disguise s.stack c a b) = .next (t.disguise t.stack c a b) := by
  cases i with
  | call nnn =>
    simp only [exec, execCall] at h ⊢
    split_ifs at h with hroom <;> cases h
    · exact if_pos hroom
    · exact if_neg hroom
  | ret =>
    simp only [exec, execRet] at h ⊢
    split_ifs at h with hentry <;> cases h
    · exact if_pos hentry
    · exact if_neg hentry
  | _ => simp [ownFields] at hi

/-- Settles O29: the other run is the first one disguised, with the stack as it was. -/
theorem soundTimeAndRedrawAreInvisible : Obligations.SoundTimeAndRedrawAreInvisible := by
  unfold Obligations.SoundTimeAndRedrawAreInvisible
  intro i s t c a b h
  by_cases hi : Field.stack ∈ ownFields i
  · exact ⟨_, exec_stack_disguised hi c a b h, rfl⟩
  · obtain ⟨u, c', b', hu, hu', -, -⟩ := exec_disguised (l := s.stack) (c := c) (a := a) (b := b) (s := s) hi
    cases h.symm.trans hu
    have hstack : t.stack = s.stack := (exec_frame h).stack (not_mem_fieldsWritten hi (by decide))
    exact ⟨_, hu', by rw [← hstack]; rfl⟩

/-! ## The stack entries at and above SP -/

/-- `s` with other stack entries and the same SP. -/
def State.withStack (s : State) (l : List Word) : State := { s with stack := l }

@[simp] theorem State.withStack_params (s : State) (l : List Word) : (s.withStack l).params = s.params := rfl

/-- `l` is a stack that `s` could hold and that differs from its own at and above SP only. -/
def State.HoldsAlso (s : State) (l : List Word) : Prop :=
  l.length = s.stack.length ∧ ∀ k, k < s.sp → l[k]? = s.stack[k]?

/-- `r'` is `r` with a stack that differs at and above SP only. -/
def Unobserved (r r' : Result) : Prop :=
  ∃ t l, r = .next t ∧ r' = .next (t.withStack l) ∧ t.HoldsAlso l

section Unobserved

variable {s : State} {l : List Word}

theorem Unobserved.raise (h : s.HoldsAlso l) (kind : FaultKind) (addr : Option Nat) :
    Unobserved (s.raise kind addr) ((s.withStack l).raise kind addr) := ⟨_, l, rfl, rfl, h⟩

theorem Unobserved.ite {c : Prop} [Decidable c] {k k' r r' : Result} (hk : c → Unobserved k k')
    (hr : Unobserved r r') : Unobserved (if c then k else r) (if c then k' else r') := by
  split
  · exact hk ‹c›
  · exact hr

/-- A push at SP hides the entry it overwrites. -/
theorem State.HoldsAlso.push (h : s.HoldsAlso l) (w : Word) : (s.push w).HoldsAlso (l.set s.sp w) := by
  refine ⟨by simp [h.1], fun k hk => ?_⟩
  by_cases hkey : k = s.sp
  · simp [hkey, List.getElem?_set, h.1]
  · rw [List.getElem?_set_ne (Ne.symm hkey), State.push_stack, List.getElem?_set_ne (Ne.symm hkey)]
    exact h.2 k (by rw [State.push_sp] at hk; omega)

theorem State.HoldsAlso.pop (h : s.HoldsAlso l) : s.pop.HoldsAlso l :=
  ⟨h.1, fun k hk => h.2 k (by rw [State.pop_sp] at hk; omega)⟩

/-- The entry a pop takes lies below SP. -/
theorem State.HoldsAlso.top (h : s.HoldsAlso l) (hsp : 0 < s.sp) : (s.withStack l).top = s.top := by
  simp only [State.top, State.withStack, List.getD_eq_getElem?_getD]
  rw [h.2 _ (by omega)]

theorem exec_unobserved (i : Instr) (h : s.HoldsAlso l) : Unobserved (exec i s) (exec i (s.withStack l)) := by
  by_cases hi : Field.stack ∈ ownFields i
  · cases i with
    | call nnn => exact .ite (fun _ => ⟨_, _, rfl, rfl, h.push s.pc⟩) (.raise h _ _)
    | ret => exact .ite (fun hsp => ⟨_, l, rfl, by rw [h.top hsp]; rfl, h.pop⟩) (.raise h _ _)
    | _ => simp [ownFields] at hi
  · obtain ⟨t, c', b', ht, ht', hst, hredraw⟩ :=
      exec_disguised (l := l) (c := s.st) (a := s.acc) (b := s.redraw) (s := s) hi
    have hframe := exec_frame ht
    have hfields : Field.stack ∉ fieldsWritten i := not_mem_fieldsWritten hi (by decide)
    have heq : t.disguise l c' s.acc b' = t.withStack l := by
      rw [hst rfl, hredraw rfl, ← hframe.acc]
      rfl
    refine ⟨t, l, ht, heq ▸ ht', ?_⟩
    unfold State.HoldsAlso
    rw [hframe.stack hfields, hframe.depth hfields]
    exact h

/-- Fetch and decode look at memory and PC only. -/
theorem fetchExecute_unobserved (h : s.HoldsAlso l) : Unobserved s.fetchExecute (s.withStack l).fetchExecute := by
  have hfetch : (s.withStack l).fetch = s.fetch := rfl
  unfold State.fetchExecute
  rw [hfetch]
  match s.fetch with
  | .error a => exact .raise h _ _
  | .ok (hi, lo) =>
    simp only [State.withStack_params]
    cases decode s.params.strict59 hi lo with
    | error e => exact .raise h _ _
    | ok i => exact exec_unobserved i h

theorem State.acceptInput_withStack (s : State) (l : List Word) :
    (s.withStack l).acceptInput = s.acceptInput.withStack l := by
  cases h : s.pending with
  | nil => rw [State.acceptInput_of_nil h, State.acceptInput_of_nil (s := s.withStack l) h]
  | cons inp rest =>
    rw [State.acceptInput_of_cons h, State.acceptInput_of_cons (s := s.withStack l) h]
    rfl

theorem State.beginTick_withStack (s : State) (l : List Word) : (s.withStack l).beginTick = s.beginTick.withStack l := by
  rw [State.beginTick, State.acceptInput_withStack]
  rfl

/-- The end of a tick neither looks at the stack nor writes it. -/
theorem State.endTick_withStack (s : State) (l : List Word) : (s.withStack l).endTick = s.endTick.withStack l := by
  rcases Option.eq_none_or_eq_some s.fault with hf | ⟨r, hf⟩
  · rw [State.endTick_of_none hf, State.endTick_of_none (s := s.withStack l) hf]
    rfl
  · rw [State.endTick_of_some hf, State.endTick_of_some (s := s.withStack l) hf]

theorem State.HoldsAlso.endTick (h : s.HoldsAlso l) : s.endTick.HoldsAlso l := by
  unfold State.endTick
  split <;> exact h

end Unobserved

/-- Settles O30: the tick's begin and end leave the stack alone, and its instruction looks at entries below SP only. -/
theorem unpushedEntriesAreUnobservable : Obligations.UnpushedEntriesAreUnobservable := by
  unfold Obligations.UnpushedEntriesAreUnobservable
  intro s t l _ hlength hbelow h
  obtain ⟨hf, he, -⟩ := step_next_cases h
  have hbegin : s.beginTick.HoldsAlso l := ⟨by simpa using hlength, by simpa using hbelow⟩
  obtain ⟨u, l', hu, hu', hl'⟩ := fetchExecute_unobserved hbegin
  rw [step_runs hf he, hu] at h
  cases h
  have he' : 0 ≤ (s.withStack l).acceptInput.elapsed := by rw [State.acceptInput_withStack]; exact he
  have hstep : step (s.withStack l) = .next (u.endTick.withStack l') := by
    rw [step_runs (s := s.withStack l) hf he', State.beginTick_withStack, hu', endTickOf, State.endTick_withStack]
  exact ⟨l', hstep, hl'.endTick⟩

end Sys2Proof.Machine
end

section
/-! PROOFS. Memory (20_memory.md R50 to R57; 45_index_memory.md R188 to R191): the canonical form is one per contents, the
bounds check, the frame of every instruction byte by byte, and the three transfers between registers and memory. -/

namespace Sys2Proof.Machine

open Sys2Proof

/-! ## The canonical form -/

/-- Canonical lists that read the same are the same: the head lists the least address that does not read as an unlisted
one. -/
theorem eq_of_memRead_eq {font : Font} {lo lo' : Nat} {m m' : List Host.Cell} (h : memWfFrom font lo m = true)
    (h' : memWfFrom font lo' m' = true) (hread : ∀ a, memRead font m a = memRead font m' a) : m = m' := by
  induction m generalizing lo lo' m' with
  | nil =>
    cases m' with
    | nil => rfl
    | cons c' rest' =>
      obtain ⟨-, -, hne, -⟩ := memWfFrom_cons.1 h'
      exact absurd (by simpa [memRead] using (hread c'.1).symm) hne
  | cons c rest ih =>
    obtain ⟨a, v⟩ := c
    obtain ⟨-, -, hne, hrest⟩ := memWfFrom_cons.1 h
    have hhead := hread a
    rw [memRead, if_pos rfl] at hhead
    cases m' with
    | nil => exact absurd hhead hne
    | cons c' rest' =>
      obtain ⟨a', v'⟩ := c'
      obtain ⟨-, -, hne', hrest'⟩ := memWfFrom_cons.1 h'
      have hhead' := hread a'
      rw [show memRead font ((a', v') :: rest') a' = v' from if_pos rfl] at hhead'
      rcases Nat.lt_trichotomy a a' with hlt | rfl | hlt
      · rw [memRead, if_neg (by omega), memRead_below hrest' (by omega)] at hhead
        exact absurd hhead hne
      · rw [memRead, if_pos rfl] at hhead
        subst hhead
        refine congrArg _ (ih hrest hrest' fun b => ?_)
        by_cases hb : b = a
        · rw [hb, memRead_below hrest (Nat.lt_succ_self a), memRead_below hrest' (Nat.lt_succ_self a)]
        · simpa [memRead, hb] using hread b
      · rw [memRead, if_neg (by omega), memRead_below hrest (by omega)] at hhead'
        exact absurd hhead'.symm hne'

/-- Settles O24: canonical lists are compared cell by cell, from the least address on. -/
theorem equalMemoriesAreEqualData : Obligations.EqualMemoriesAreEqualData := by
  unfold Obligations.EqualMemoriesAreEqualData
  exact fun _ _ _ h h' hread => eq_of_memRead_eq h h' hread

/-! ## The bounds check -/

/-- Settles O25: the check passes where no access or the last one is inside memory; elsewhere its answer is `a` or 0x1000,
and no other address is the least bad one. -/
theorem boundsCheckGivesTheLeastBadAddress : Obligations.BoundsCheckGivesTheLeastBadAddress := by
  unfold Obligations.BoundsCheckGivesTheLeastBadAddress
  intro a n
  have hinside : (n = 0 ∨ a + n ≤ memSize) ↔ ∀ k, k < n → a + k ≤ 0xFFF := by
    unfold memSize
    constructor
    · omega
    · intro h
      by_contra hc
      have := h (n - 1) (by omega)
      omega
  refine ⟨firstOutOfRange_eq_none.trans hinside, fun b => ?_⟩
  by_cases hok : n = 0 ∨ a + n ≤ memSize
  · rw [firstOutOfRange_eq_none.2 hok]
    refine iff_of_false nofun fun ⟨hb, hab, hbn, _⟩ => ?_
    have := hinside.1 hok (b - a) (by omega)
    omega
  · rw [firstOutOfRange_of_lt (by omega) (by omega), Option.some_inj]
    have hbad : 0 < n ∧ 0x1000 < a + n := by unfold memSize at hok; omega
    constructor
    · rintro rfl
      split <;> exact ⟨by omega, by omega, by omega, fun c _ _ => by omega⟩
    · rintro ⟨hb, hab, hbn, hleast⟩
      split
      · have := hleast a
        omega
      · have := hleast 0x1000
        omega

/-! ## The frame, byte by byte -/

/-- A byte outside those an instruction stores is as before. -/
theorem exec_readByte_outside {i : Instr} {s t : State} (hwf : Memory.wf s.params.font s.mem = true)
    (h : exec i s = .next t) {a : Nat} (ha : a < s.iAddr ∨ s.iAddr + bytesStored i ≤ a) :
    t.readByte a = s.readByte a := by
  have hparams := (exec_frame h).params
  rcases exec_mem_cases h with hmem | ⟨bs, hlength, hrange, hmem⟩
  · exact State.readByte_congr hmem hparams a
  · have hbytes : t.readByte a = (s.writeBytes s.iAddr bs).readByte a :=
      State.readByte_congr (s := s.writeBytes s.iAddr bs) hmem hparams a
    rw [hbytes, State.readByte_writeBytes hwf s.iAddr bs hrange]
    split
    · rw [List.getElem?_eq_none (by omega), Option.getD_none]
    · rfl

/-- Settles O26: a raised fault is in the frame of its instruction, and the bytes an instruction stores are those of
`exec_mem_cases`. -/
theorem everyInstructionKeepsItsFrame : Obligations.EveryInstructionKeepsItsFrame := by
  unfold Obligations.EveryInstructionKeepsItsFrame
  exact fun _ _ _ hwf h => ⟨exec_frame h, fun _ ha => exec_readByte_outside hwf h ha⟩

/-! ## The transfers -/

/-- A memory instruction whose range leaves memory raises its fault, whatever it would have done. -/
theorem withRange_fault_eq {s : State} {n : Nat} (k : Result) (h : 0xFFF < s.i.toNat + n) :
    s.withRange (n + 1) k = .next { s with
      fault := some ⟨.memoryBoundsViolation, s.pc, some (if 0xFFF < s.i.toNat then s.i.toNat else 0x1000)⟩ } :=
  State.withRange_fault k (Nat.succ_pos n) (by unfold memSize State.iAddr; omega)

/-- A checked store writes its bytes at I, I + 1, ... and nothing else. -/
theorem store_spec {s : State} {bs : List Byte} {n : Nat} (hwf : Memory.wf s.params.font s.mem = true)
    (hlength : bs.length = n + 1) (hrange : s.i.toNat + n ≤ 0xFFF) :
    ∃ t, s.withRange (n + 1) ((s.writeBytes s.iAddr bs).finish .next) = .next t ∧
      (∀ k b, bs[k]? = some b → t.readByte (s.i.toNat + k) = b) ∧
      (∀ a, (a < s.i.toNat ∨ s.i.toNat + n < a) → t.readByte a = s.readByte a) ∧
      t.pc = s.pc + 2 ∧ Frame [] [.memory] s t := by
  have hsize : s.iAddr + bs.length ≤ memSize := by unfold memSize State.iAddr; omega
  have hread (a : Nat) := State.readByte_writeBytes hwf s.iAddr bs hsize a
  refine ⟨_, State.withRange_ok _ (.inr (hlength ▸ hsize)), fun k b hb => ?_, fun a ha => ?_, rfl, ?_⟩
  · rw [State.readByte_setPc]
    simpa [State.iAddr, hb] using hread (s.i.toNat + k)
  · rw [State.readByte_setPc, hread]
    unfold State.iAddr
    split
    · rw [List.getElem?_eq_none (by omega), Option.getD_none]
    · rfl
  · constructor
    case memory => exact fun h => absurd (List.mem_singleton_self _) h
    all_goals (intros; rfl)

/-- Settles O46: the three bytes stored are the digits by number. -/
theorem bcdStoresThreeDigits : Obligations.BcdStoresThreeDigits := by
  unfold Obligations.BcdStoresThreeDigits
  intro x s
  refine ⟨fun hwf hrange => ?_, withRange_fault_eq _⟩
  obtain ⟨t, hexec, hbytes, hout, hpc, hframe⟩ := store_spec (bs := bcdDigits (s.reg x)) (n := 2) hwf rfl hrange
  have hdigits := bcdDigits_toNat (s.reg x)
  simp only [bcdDigits, List.map_cons, List.map_nil, List.cons.injEq, and_true] at hdigits
  obtain ⟨hhundreds, htens, hones⟩ := hdigits
  exact ⟨t, hexec, (hbytes 0 _ rfl).symm ▸ hhundreds, (hbytes 1 _ rfl).symm ▸ htens,
    (hbytes 2 _ rfl).symm ▸ hones, fun a ha => hout a (by omega), hpc, hframe⟩

/-- Settles O47: the byte stored at I + r is Vr. -/
theorem storeOfARegisterRange : Obligations.StoreOfARegisterRange := by
  unfold Obligations.StoreOfARegisterRange
  intro x s
  refine ⟨fun hwf hrange => ?_, withRange_fault_eq _⟩
  obtain ⟨t, hexec, hbytes, hrest⟩ := store_spec hwf (s.regsUpTo_length x) hrange
  exact ⟨t, hexec, fun r hr => hbytes _ _ (s.regsUpTo_getElem? x r hr), hrest⟩

/-- A checked range load leaves M[I + r] in Vr for r up to x, and writes nothing else. -/
theorem exec_ldVxMem_of_range {x : Nibble} {s : State} (hrange : s.i.toNat + x.toNat ≤ 0xFFF) :
    ∃ t, exec (.ldVxMem x) s = .next t ∧ t.pc = s.pc + 2 ∧ Frame (regsWritten (.ldVxMem x)) [] s t ∧
      ∀ r : Nibble, t.reg r = if r.toNat ≤ x.toNat then s.readByte (s.i.toNat + r.toNat) else s.reg r := by
  obtain ⟨hreg, -⟩ := State.loadRegs_spec s s.iAddr x
  refine ⟨_, State.withRange_ok _ (.inr (by unfold memSize State.iAddr; omega)), ?_,
    (Frame.loadRegs s s.iAddr x).withPc _, hreg⟩
  rw [State.setPc_pc, State.loadRegs_pc]
  rfl

/-- Settles O48: the load by the value of every register, and the check before the first write. -/
theorem loadOfARegisterRange : Obligations.LoadOfARegisterRange := by
  unfold Obligations.LoadOfARegisterRange
  intro x s
  refine ⟨fun hrange => ?_, withRange_fault_eq _⟩
  obtain ⟨t, hexec, hpc, hframe, hreg⟩ := exec_ldVxMem_of_range hrange
  exact ⟨t, hexec, fun r hr => by rw [hreg, if_pos hr], hpc, hframe, fun r hr => by rw [hreg, if_neg (by omega)]⟩

/-- Settles O49: the byte at I + r is Vr after the store (O47), and the load puts it back in Vr (O48). -/
theorem loadRestoresWhatStoreSaved : Obligations.LoadRestoresWhatStoreSaved := by
  unfold Obligations.LoadRestoresWhatStoreSaved
  intro x s t u hwf hrange hstore hi hbytes
  obtain ⟨t', hstore', hsaved, -, -, hframe⟩ := (storeOfARegisterRange x s).1 hwf hrange
  cases hstore.symm.trans hstore'
  have hti : t.i = s.i := hframe.index (by decide)
  obtain ⟨w, hload, hloaded, -⟩ := (loadOfARegisterRange x u).1 (by rw [hi, hti]; exact hrange)
  refine ⟨w, hload, fun r hr => ?_⟩
  rw [hloaded r hr, hi, hbytes _ hr, hti, hsaved r hr]

end Sys2Proof.Machine
end

section
/-! PROOFS. Registers, control flow, skips, index, timers and keys, one instruction at a time: each answers the state its
shared ending makes, and its frame is the one of its row in the lists of Safety.lean. -/

namespace Sys2Proof.Machine

open Sys2Proof

/-! ## Control flow (41_control_flow.md) -/

/-- Settles O31: the default advance is all SYS does. -/
theorem sysIsANoOp : Obligations.SysIsANoOp := by
  unfold Obligations.SysIsANoOp
  exact fun _ _ => rfl

/-- Settles O32: both are jumps, whose targets these are by number. -/
theorem jumpsSetPc : Obligations.JumpsSetPc := by
  unfold Obligations.JumpsSetPc
  exact fun nnn s => ⟨⟨_, rfl, zextNNN_toNat nnn, exec_frame (i := .jp nnn) rfl⟩,
    ⟨_, rfl, jpV0_target_toNat (s.reg 0) nnn, exec_frame (i := .jpV0 nnn) rfl⟩⟩

/-- A push writes SP and the entry at it only. -/
theorem Frame.push (s : State) (w : Word) : Frame [] [.stack] s (s.push w) := by
  constructor
  case depth | stack => exact fun h => absurd (List.mem_singleton_self _) h
  all_goals (intros; rfl)

/-- Settles O33: with room the call is a push and a jump, and a push sets the entry at SP alone. -/
theorem callPushesItsOwnAddress : Obligations.CallPushesItsOwnAddress := by
  unfold Obligations.CallPushesItsOwnAddress
  intro nnn s
  refine ⟨fun hroom hlength => ⟨_, exec_call_of_room hroom, zextNNN_toNat nnn, rfl, List.length_set,
    List.getElem?_set_self (hlength ▸ hroom), fun k hk => List.getElem?_set_ne (Ne.symm hk),
    (Frame.push s s.pc).withPc _⟩, fun hfull => ?_⟩
  rw [exec, execCall, if_neg (not_lt.2 hfull)]
  rfl

/-- Settles O34: with an entry held the return is a pop and a jump past the call. -/
theorem returnPopsAndAddsTwo : Obligations.ReturnPopsAndAddsTwo := by
  unfold Obligations.ReturnPopsAndAddsTwo
  intro s
  refine ⟨fun w hsp hw => ⟨_, exec_ret_of_entry hsp hw, rfl, rfl, rfl, (Frame.pop s).withPc _⟩, fun hempty => ?_⟩
  rw [exec, execRet, if_neg (by omega)]
  rfl

/-! ## Skips (42_skip.md, 47_keys.md) -/

/-- A skip by a condition that may be written as a proposition. -/
theorem State.skipIf_of_iff (s : State) {c : Bool} {p : Prop} [Decidable p] (h : c = true ↔ p) :
    s.skipIf c = .next { s with pc := if p then s.pc + 4 else s.pc + 2 } := by
  rw [State.skipIf_eq, if_congr h rfl rfl]
  rfl

/-- The same of a skip whose condition is written as what fails. -/
theorem State.skipIf_of_iff_not (s : State) {c : Bool} {p : Prop} [Decidable p] (h : c = true ↔ ¬p) :
    s.skipIf c = .next { s with pc := if p then s.pc + 2 else s.pc + 4 } := by
  rw [State.skipIf_of_iff s h, ite_not]

/-- Settles O36: the two SE skip on equality, the two SNE on its failure. -/
theorem skipsOnValues : Obligations.SkipsOnValues := by
  unfold Obligations.SkipsOnValues
  exact fun x y n kk s => ⟨s.skipIf_of_iff beq_iff_eq, s.skipIf_of_iff_not bne_iff_ne, s.skipIf_of_iff beq_iff_eq,
    s.skipIf_of_iff_not bne_iff_ne⟩

/-- Settles O54: a byte names the key of its value or, above 0xF, none. -/
theorem skipsOnKeys : Obligations.SkipsOnKeys := by
  unfold Obligations.SkipsOnKeys
  intro x s
  constructor
  · intro k hk
    simp only [exec, execSkp, execSknp, keyIndex_eq_some.2 hk]
    exact ⟨s.skipIf_of_iff Iff.rfl, s.skipIf_of_iff_not (by simp)⟩
  · intro hnone
    simp only [exec, execSkp, execSknp, keyIndex_eq_none.2 hnone]
    exact ⟨rfl, rfl⟩

/-- Settles O55: the least pressed key is the one of the statement's premise, and with none pressed PC is held. -/
theorem keyWait : Obligations.KeyWait := by
  unfold Obligations.KeyWait
  intro x s
  constructor
  · intro k hdown hleast
    have hexec : exec (.ldVxK x) s = s.putResult x (k.setWidth 8) := by
      simp only [exec, execLdVxK, State.leastKey_eq_some.2 ⟨hdown, hleast⟩]
      rfl
    obtain ⟨t, ht, hreg, hpc, hframe⟩ := s.putResult_spec x (k.setWidth 8)
    refine ⟨t, hexec.trans ht, ?_, hpc, hframe⟩
    rw [hreg, BitVec.toNat_setWidth_of_le (by decide)]
  · intro hup
    simp only [exec, execLdVxK, State.leastKey_eq_none.2 hup]
    rfl

/-! ## The ALU (43_alu.md) -/

/-- Settles O38: the sum of bytes is the sum modulo 256. -/
theorem addImmediateWrapsWithoutAFlag : Obligations.AddImmediateWrapsWithoutAFlag := by
  unfold Obligations.AddImmediateWrapsWithoutAFlag
  intro x kk s
  obtain ⟨t, ht, hreg, hrest⟩ := s.putResult_spec x (s.reg x + kk)
  exact ⟨t, ht, by rw [hreg, BitVec.toNat_add], hrest⟩

/-- Settles O39: the four results bit by bit. -/
theorem copyAndBitwiseWithoutAFlag : Obligations.CopyAndBitwiseWithoutAFlag := by
  unfold Obligations.CopyAndBitwiseWithoutAFlag
  intro x y s
  obtain ⟨tor, hor, hregor, hrestor⟩ := s.putResult_spec x (s.reg x ||| s.reg y)
  obtain ⟨tand, hand, hregand, hrestand⟩ := s.putResult_spec x (s.reg x &&& s.reg y)
  obtain ⟨txor, hxor, hregxor, hrestxor⟩ := s.putResult_spec x (s.reg x ^^^ s.reg y)
  exact ⟨s.putResult_spec x (s.reg y),
    ⟨tor, hor, fun k => by rw [hregor, BitVec.getLsbD_or], hrestor⟩,
    ⟨tand, hand, fun k => by rw [hregand, BitVec.getLsbD_and], hrestand⟩,
    ⟨txor, hxor, fun k => by rw [hregxor, BitVec.getLsbD_xor], hrestxor⟩⟩

/-- A flag by the proposition it decides. -/
theorem flag_decide (p : Prop) [Decidable p] : flag (decide p) = if p then 0x01 else 0x00 := by
  simp [flag]

/-- Settles O40: the sum modulo 256 and the carry the flag decides. -/
theorem addRegisterWithCarry : Obligations.AddRegisterWithCarry := by
  unfold Obligations.AddRegisterWithCarry
  intro x y s
  obtain ⟨t, ht, hreg, hvf, hrest⟩ := s.putResultFlag_spec x (s.reg x + s.reg y) (carryFlag (s.reg x) (s.reg y))
  exact ⟨t, ht, fun hx => by rw [hreg hx, BitVec.toNat_add], hvf.trans (flag_decide _), hrest⟩

/-- The difference of bytes is the difference modulo 256. -/
theorem sub_toNat (a b : Byte) : (a - b).toNat = (a.toNat + 256 - b.toNat) % 256 := by
  rw [BitVec.toNat_sub]
  omega

/-- A difference into Vx and the no-borrow flag into VF, the operands in either order. -/
theorem State.putDifference_spec (s : State) (x : Nibble) (a b : Byte) :
    ∃ t, s.putResultFlag x (a - b) (noBorrowFlag a b) = .next t ∧
      (x ≠ 0xF → (t.reg x).toNat = (a.toNat + 256 - b.toNat) % 256) ∧
      t.reg 0xF = (if a.toNat > b.toNat then 0x01 else 0x00) ∧ t.pc = s.pc + 2 ∧ Frame [x, 0xF] [] s t := by
  obtain ⟨t, ht, hreg, hvf, hrest⟩ := s.putResultFlag_spec x (a - b) (noBorrowFlag a b)
  exact ⟨t, ht, fun hx => by rw [hreg hx, sub_toNat], hvf.trans (flag_decide _), hrest⟩

/-- Settles O41: SUB takes the operands in the one order and SUBN in the other. -/
theorem subtractWithNoBorrow : Obligations.SubtractWithNoBorrow := by
  unfold Obligations.SubtractWithNoBorrow
  exact fun x y s => ⟨s.putDifference_spec x (s.reg x) (s.reg y), s.putDifference_spec x (s.reg y) (s.reg x)⟩

/-- Settles O42: a shift halves, or doubles modulo 256, and each flag is the bit shifted out. -/
theorem shiftsOfVx : Obligations.ShiftsOfVx := by
  unfold Obligations.ShiftsOfVx
  intro x y s
  obtain ⟨tr, htr, hregr, hvfr, hrestr⟩ := s.putResultFlag_spec x (s.reg x >>> 1) (shiftRightFlag (s.reg x))
  obtain ⟨tl, htl, hregl, hvfl, hrestl⟩ := s.putResultFlag_spec x (s.reg x <<< 1) (shiftLeftFlag (s.reg x))
  refine ⟨⟨tr, htr, fun hx => ?_, ?_, hrestr⟩, ⟨tl, htl, fun hx => ?_, ?_, hrestl⟩⟩
  · rw [hregr hx, BitVec.toNat_ushiftRight, Nat.shiftRight_eq_div_pow]
  · exact (congrArg _ hvfr).trans (shiftRightFlag_toNat _)
  · rw [hregl hx, BitVec.toNat_shiftLeft, Nat.shiftLeft_eq, Nat.mul_comm]
  · exact hvfl.trans (shiftLeftFlag_eq _)

/-! ## RND (44_random.md) -/

/-- Settles O44: the byte drawn is the queue's head or, of an empty queue, the free value. -/
theorem randomByteUnderAMask : Obligations.RandomByteUnderAMask := by
  unfold Obligations.RandomByteUnderAMask
  intro x kk s
  refine ⟨s.nextRandom, _, rfl, State.reg_setReg_self _ _ _, fun b rest h => ?_, fun h => ?_, rfl, rfl,
    exec_frame (i := .rnd x kk) rfl⟩
  · exact ⟨by rw [State.nextRandom, h], congrArg List.tail h⟩
  · exact ⟨by rw [State.nextRandom, h], congrArg List.tail h⟩

/-! ## The index register and the timers (45_index_memory.md, 46_timers.md) -/

/-- Settles O45: the three values of I by number. -/
theorem writersOfTheIndexRegister : Obligations.WritersOfTheIndexRegister := by
  unfold Obligations.WritersOfTheIndexRegister
  intro nnn x s
  have hsum : (s.i + zextByte (s.reg x)).toNat = (s.i.toNat + (s.reg x).toNat) % 0x10000 := by
    rw [BitVec.toNat_add, zextByte_toNat]
  exact ⟨⟨_, rfl, zextNNN_toNat nnn, rfl, exec_frame (i := .ldI nnn) rfl⟩,
    ⟨_, rfl, hsum, rfl, exec_frame (i := .addIVx x) rfl⟩,
    ⟨_, rfl, glyphAddr_toNat (s.reg x), rfl, exec_frame (i := .ldFVx x) rfl⟩⟩

/-- Settles O50: each transfer writes one register or timer and takes the default advance. -/
theorem timerTransfers : Obligations.TimerTransfers := by
  unfold Obligations.TimerTransfers
  exact fun x s => ⟨s.putResult_spec x s.dt, ⟨_, rfl, rfl, rfl, exec_frame (i := .ldDtVx x) rfl⟩,
    ⟨_, rfl, rfl, rfl, exec_frame (i := .ldStVx x) rfl⟩⟩

end Sys2Proof.Machine
end

section
/-! PROOFS. The timer advance (60_exceptions.md R266, R267): the closed form is the loop, one time-step at a time, and two
advances are one. -/

namespace Sys2Proof.Machine

open Sys2Proof

/-! ## Counting down -/

theorem countDown_add (t : Byte) (p q : Nat) : countDown (countDown t p) q = countDown t (p + q) := by
  apply BitVec.eq_of_toNat_eq
  simp only [countDown_toNat]
  omega

theorem countDown_zero (t : Byte) : countDown t 0 = t := by
  apply BitVec.eq_of_toNat_eq
  rw [countDown_toNat, Nat.sub_zero]

/-- One round of the loop counts a timer down by one. -/
theorem countDown_one (t : Byte) : (if t.toNat > 0 then t - 1 else 0) = countDown t 1 := by
  apply BitVec.eq_of_toNat_eq
  rw [countDown_toNat]
  split
  · bv_omega
  · simp only [BitVec.ofNat_eq_ofNat, BitVec.toNat_ofNat]
    omega

/-! ## Counting time-steps -/

/-- The steps of a longer time are those of the shorter one, and those of what is left over with the rest. -/
theorem timeSteps_add {t e : Rat} (ht : 0 ≤ t) (he : 0 ≤ e) :
    timeSteps (t + e) = timeSteps t + timeSteps (t - timeSteps t / 60 + e) := by
  have hleft := (timeSteps_bounds ht).1
  obtain ⟨hlow, hhigh⟩ := timeSteps_bounds (t := t - timeSteps t / 60 + e) (by linarith)
  apply timeSteps_unique <;> push_cast <;> linarith

theorem timeSteps_of_lt {t : Rat} (h0 : 0 ≤ t) (h : t < 1 / 60) : timeSteps t = 0 :=
  timeSteps_unique (by simpa using h0) (by simpa using h)

/-- Taking one step off a time takes one off its number of steps. -/
theorem timeSteps_sub_step {t : Rat} (h : 1 / 60 ≤ t) : timeSteps t = 1 + timeSteps (t - 1 / 60) := by
  obtain ⟨hlow, hhigh⟩ := timeSteps_bounds (t := t - 1 / 60) (by linarith)
  apply timeSteps_unique <;> push_cast <;> linarith

/-! ## The loop -/

/-- `q` time-steps at once: both timers counted down and the time taken off ACC. -/
def State.elapse (s : State) (q : Nat) : State :=
  { s with dt := countDown s.dt q, st := countDown s.st q, acc := s.acc - q / 60 }

theorem State.elapse_zero (s : State) : s.elapse 0 = s := by
  simp [State.elapse, countDown_zero]

theorem State.elapse_add (s : State) (p q : Nat) : (s.elapse p).elapse q = s.elapse (p + q) := by
  simp only [State.elapse, countDown_add]
  congr 1
  push_cast
  ring

/-- An advance is so many steps after the time is added to ACC. -/
theorem State.advanceTimers_eq_elapse (s : State) (e : Rat) :
    s.advanceTimers e = { s with acc := s.acc + e }.elapse (timeSteps (s.acc + e)) := rfl

theorem timerLoop_succ_of_le {s : State} (fuel : Nat) (h : 1 / 60 ≤ s.acc) :
    timerLoop (fuel + 1) s = timerLoop fuel (s.elapse 1) := by
  rw [timerLoop, if_pos h, countDown_one, countDown_one]
  simp [State.elapse]

/-- With rounds enough the loop runs the steps ACC holds. -/
theorem timerLoop_eq_elapse (fuel : Nat) {s : State} (h0 : 0 ≤ s.acc) (h : s.acc < (fuel + 1) / 60) :
    timerLoop fuel s = s.elapse (timeSteps s.acc) := by
  induction fuel generalizing s with
  | zero => rw [timerLoop, timeSteps_of_lt h0 (by simpa using h), State.elapse_zero]
  | succ fuel ih =>
    by_cases hstep : 1 / 60 ≤ s.acc
    · have hacc : (s.elapse 1).acc = s.acc - 1 / 60 := by simp [State.elapse]
      push_cast at h
      rw [timerLoop_succ_of_le fuel hstep, ih (by linarith) (by linarith), State.elapse_add, hacc,
        ← timeSteps_sub_step hstep]
    · rw [timerLoop, if_neg hstep, timeSteps_of_lt h0 (not_le.1 hstep), State.elapse_zero]

/-- Settles O51: the loop runs the steps the closed form counts. -/
theorem timersAdvanceAsTheLoopDoes : Obligations.TimersAdvanceAsTheLoopDoes := by
  unfold Obligations.TimersAdvanceAsTheLoopDoes
  intro s e fuel h0 h
  obtain ⟨hlow, hhigh⟩ := State.advanceTimers_acc_bounds h0
  exact ⟨timerLoop_eq_elapse fuel (s := { s with acc := s.acc + e }) h0 h, hhigh, hlow⟩

/-- Settles O52: the steps of the two advances add up to those of the one. -/
theorem timersDependOnTotalTimeOnly : Obligations.TimersDependOnTotalTimeOnly := by
  unfold Obligations.TimersDependOnTotalTimeOnly
  intro s e₁ e₂ h0 h₁ h₂
  have hsteps := timeSteps_add (add_nonneg h0 h₁) h₂
  rw [add_assoc] at hsteps
  simp only [State.advanceTimers, countDown_add, hsteps]
  congr 1
  push_cast
  ring

end Sys2Proof.Machine
end

section
/-! PROOFS. The display (48_display.md R230 to R234): placement, the order of toggles, and what CLS and DRW leave. -/

namespace Sys2Proof.Machine

open Sys2Proof

/-! ## Placement (R232) -/

/-- Settles O60, policy by policy. -/
theorem placementOfSpritePixels : Obligations.PlacementOfSpritePixels := by
  unfold Obligations.PlacementOfSpritePixels
  intro x y
  refine ⟨fun e => spriteCell_lt e x y, fun hx hy e => ?inside, fun hx hy => ?_, fun hx hy => ?_, fun hx hy => ?_,
    fun h => ?_, fun h => ?_, rfl⟩
  case inside => cases e <;> simp only [spriteCell] <;> omega
  all_goals simp only [spriteCell]; omega

/-! ## The order of toggles (R233) -/

/-- A toggle off the grid does nothing. -/
theorem toggle_off_grid (d : Display) {k : Nat} (hk : ¬k < 2048) : toggle d k = d := dif_neg hk

theorem cellOf_toggle_ne (d : Display) {k j : Nat} (h : j ≠ k) : cellOf (toggle d k) j = cellOf d j := by
  by_cases hk : k < 2048
  · simp [cellOf_toggle d k j hk, h]
  · rw [toggle_off_grid d hk]

theorem toggle_comm (d : Display) (k j : Nat) : toggle (toggle d k) j = toggle (toggle d j) k := by
  by_cases hk : k < 2048
  · by_cases hj : j < 2048
    · refine display_ext fun i _ => ?_
      simp only [cellOf_toggle _ _ _ hk, cellOf_toggle _ _ _ hj]
      rw [Bool.bne_assoc, Bool.bne_assoc, bne_comm (a := decide (i = k))]
    · rw [toggle_off_grid _ hj, toggle_off_grid _ hj]
  · rw [toggle_off_grid _ hk, toggle_off_grid _ hk]

/-- Two toggles may be swapped: of different cells, neither changes what the other collides with. -/
theorem toggleStep_comm (p : Display × Bool) (k j : Nat) :
    toggleStep (toggleStep p k) j = toggleStep (toggleStep p j) k := by
  by_cases h : k = j
  · rw [h]
  · simp only [toggleStep, cellOf_toggle_ne _ h, cellOf_toggle_ne _ (Ne.symm h), toggle_comm p.1 k j,
      Bool.or_right_comm]

/-- Settles O59: a permutation is made of swaps. -/
theorem drawingOrderDoesNotMatter : Obligations.DrawingOrderDoesNotMatter := by
  unfold Obligations.DrawingOrderDoesNotMatter
  intro d cells cells' h
  have : RightCommutative toggleStep := ⟨toggleStep_comm⟩
  exact h.foldl_eq (d, false)

/-! ## The toggles of a sprite (R231) -/

/-- How many pixels of a row byte fall on cell `k`: one row of `togglesOf`. -/
def rowToggles (edge : DrawEdge) (x y : Nat) (row : Byte) (k : Nat) : Nat :=
  ((List.range 8).filter fun c => row.getLsbD (7 - c) && spriteCell edge (x + c) y == k).length

theorem count_row (edge : DrawEdge) (x y : Nat) (row : Byte) (k : Nat) :
    ((rowColumns row).map fun c => spriteCell edge (x + c) y).count k = rowToggles edge x y row k := by
  rw [List.count, List.countP_map, rowColumns, List.countP_filter, List.countP_eq_length_filter, rowToggles]
  simp only [Function.comp_apply, Bool.and_comm]

theorem count_spriteCells (edge : DrawEdge) (x y n : Nat) (row : Nat → Byte) (k : Nat) :
    (spriteCells edge x y ((List.range n).map row)).count k =
      ((List.range n).map fun r => rowToggles edge x (y + r) (row r) k).sum := by
  induction n generalizing y row with
  | zero => rfl
  | succ n ih =>
    rw [List.range_succ_eq_map, List.map_cons, spriteCells, List.count_append, count_row, List.map_map, ih,
      List.map_cons, List.map_map, List.sum_cons]
    simp only [Function.comp_def, Nat.succ_eq_add_one, Nat.add_zero, Nat.add_assoc, Nat.add_comm 1]

/-- The cells the DRW of a state toggles, in the order it does. -/
def State.drawnCells (s : State) (x y n : Nibble) : List Nat :=
  spriteCells s.params.drawEdge (s.reg x).toNat (s.reg y).toNat (s.readBytes s.iAddr n.toNat)

theorem count_drawnCells (s : State) (x y n : Nibble) (k : Nat) :
    (s.drawnCells x y n).count k = togglesOf s x y n k :=
  count_spriteCells _ _ _ _ _ _

/-- What DRW draws, by the number of pixels on each cell. -/
theorem State.drawn_spec (s : State) (x y n : Nibble) :
    (∀ k, cellOf (s.drawn x y n).1 k = (cellOf s.disp k != decide (togglesOf s x y n k % 2 = 1))) ∧
    ((s.drawn x y n).2 = true ↔ ∃ k, k < 2048 ∧
      (2 ≤ togglesOf s x y n k ∨ 1 ≤ togglesOf s x y n k ∧ cellOf s.disp k = true)) := by
  have hgrid : ∀ k ∈ s.drawnCells x y n, k < 2048 := spriteCells_lt _ _ _ _
  obtain ⟨hcell, hcollision⟩ := applyToggles_spec s.disp (s.drawnCells x y n) hgrid
  simp only [count_drawnCells] at hcell hcollision
  refine ⟨hcell, hcollision.trans (exists_congr fun k => ⟨fun hk => ⟨?_, hk⟩, And.right⟩)⟩
  refine hgrid k (List.count_pos_iff.1 ?_)
  rw [count_drawnCells]
  omega

/-! ## CLS and DRW -/

/-- Settles O56: CLS writes the empty display, and VF is in no list of what it writes. -/
theorem clearScreen : Obligations.ClearScreen := by
  unfold Obligations.ClearScreen
  exact fun s => ⟨_, rfl, cellOf_empty, rfl, rfl, exec_frame (i := .cls) rfl⟩

theorem flag_eq_one (c : Bool) : flag c = 0x01 ↔ c = true := by
  cases c <;> decide

/-- A picture and then a flag written. -/
theorem Frame.setDispFlag (s : State) (d : Display) (b : Byte) :
    Frame [vf] [.display, .redraw] s ((s.setDisp d).setReg vf b) := by
  constructor
  case regs => exact fun r hr => State.reg_setReg_ne _ b (by simpa using hr)
  case display | redraw => exact fun h => absurd (by simp) h
  all_goals (intros; rfl)

/-- Settles O57: the picture and the collision are those of the sprite's toggles, counted cell by cell. -/
theorem drawTogglesCellsAndReportsCollision : Obligations.DrawTogglesCellsAndReportsCollision := by
  unfold Obligations.DrawTogglesCellsAndReportsCollision
  intro x y n s hrange
  obtain ⟨hcell, hcollision⟩ := s.drawn_spec x y n
  have hvf := State.reg_setReg_self (s.setDisp (s.drawn x y n).1) vf (flag (s.drawn x y n).2)
  exact ⟨_, State.withRange_ok _ hrange, fun k _ => hcell k,
    (Eq.congr_left hvf).trans ((flag_eq_one _).trans hcollision), (flag_eq _).imp hvf.trans hvf.trans, rfl, rfl,
    (Frame.setDispFlag s _ _).withPc _⟩

/-- Settles O58: the check comes before the first write. -/
theorem drawOutOfMemoryFaults : Obligations.DrawOutOfMemoryFaults := by
  unfold Obligations.DrawOutOfMemoryFaults
  exact fun x y n s hn h => State.withRange_fault _ hn h

end Sys2Proof.Machine
end
